-- ==== Sys2Proof/Word.lean ====
section
/-! DEFINITION. The two widths of the machine (spec/00_scope.md R5): the byte, the addressable unit of every segment,
and the word, the width of every register, immediate and address value. -/

namespace Sys2Proof

/-- A byte value, `BYTE_BITS` = 8 (R5, R9). -/
abbrev Byte := BitVec 8

/-- A word value, `WORD_BITS` = 16 (R5, R9). -/
abbrev Word := BitVec 16

end Sys2Proof
end

