-- ==== Sys2Proof/Syntax.lean ====
section
/-! DEFINITION. The instruction set as data: the 13 register names, the operand byte, the four formats and one
constructor of `Instr` per row of spec/opcode_table.json (spec/30_encoding.md R81, R87, R88). -/

namespace Sys2Proof

/-- The 13 registers, in the order of spec/10_state.md R21. -/
inductive Reg where
  | ip | lr | ac | r1 | r2 | r3 | r4 | r5 | r6 | r7 | r8 | sp | fp
  deriving DecidableEq, Repr

/-- A register operand as the instruction carries it: the operand byte, any of the 256 values (R84, R86). Whether it
names a register is found out when the register is accessed, not at decode. -/
abbrev RegIndex := Byte

/-- The four formats of R81. -/
inductive Format where
  | n | r | rr | i
  deriving DecidableEq, Repr

/-- The closed set of 29 instructions (R87), in the order of the opcode map R88. Operands stand in encoding order (R82). -/
inductive Instr where
  /-- `LW rd,rs` (R160). -/
  | lw (rd rs : RegIndex)
  /-- `SW rs,rd` (R161): `rs` holds the value, `rd` the address. -/
  | sw (rs rd : RegIndex)
  /-- `SWP r1,r2` (R170). -/
  | swp (ra rb : RegIndex)
  /-- `PSH rs` (R171). -/
  | psh (rs : RegIndex)
  /-- `PSHI imm16` (R172). -/
  | pshi (imm : Word)
  /-- `POP rd` (R173). -/
  | pop (rd : RegIndex)
  /-- `JALI imm16` (R180). -/
  | jali (imm : Word)
  /-- `JAL rs` (R181). -/
  | jal (rs : RegIndex)
  /-- `RET` (R182). -/
  | ret
  /-- `ADD r1,r2` (R190). -/
  | add (ra rb : RegIndex)
  /-- `SUB r1,r2` (R191). -/
  | sub (ra rb : RegIndex)
  /-- `MULT r1,r2` (R192). -/
  | mult (ra rb : RegIndex)
  /-- `DIV r1,r2` (R193). -/
  | div (ra rb : RegIndex)
  /-- `MOD r1,r2` (R194). -/
  | mod (ra rb : RegIndex)
  /-- `AND r1,r2` (R200). -/
  | and (ra rb : RegIndex)
  /-- `OR r1,r2` (R201). -/
  | or (ra rb : RegIndex)
  /-- `XOR r1,r2` (R202). -/
  | xor (ra rb : RegIndex)
  /-- `LSHFT r1,r2` (R203). -/
  | lshft (ra rb : RegIndex)
  /-- `RSHFT r1,r2` (R204). -/
  | rshft (ra rb : RegIndex)
  /-- `NOT r1` (R205). -/
  | not (ra : RegIndex)
  /-- `JR rs` (R210). -/
  | jr (rs : RegIndex)
  /-- `JI imm16` (R211). -/
  | ji (imm : Word)
  /-- `BEQ imm16` (R213). -/
  | beq (imm : Word)
  /-- `BNE imm16` (R214). -/
  | bne (imm : Word)
  /-- `BLT imm16` (R215). -/
  | blt (imm : Word)
  /-- `BLE imm16` (R216). -/
  | ble (imm : Word)
  /-- `BGT imm16` (R217). -/
  | bgt (imm : Word)
  /-- `BGE imm16` (R218). -/
  | bge (imm : Word)
  /-- `HLT` (R230). -/
  | hlt
  deriving DecidableEq, Repr

end Sys2Proof
end

