-- ==== Sys2Proof/Decode.lean ====
section
/-! DEFINITION. Byte order, register indices, the opcode map, the decoder (total on any bytes) and the encoder
(spec/30_encoding.md R80 to R90, spec/10_state.md R21, spec/20_memory.md R57). -/

namespace Sys2Proof

/-- `hi ++ lo = hi * 256 + lo` (R8): the big-endian word of two bytes (R57, R85). -/
def beWord (hi lo : Byte) : Word := hi ++ lo

/-- `w[15:8]`, the byte stored at the lower address (R8, R57). -/
def highByte (w : Word) : Byte := w.extractLsb' 8 8

/-- `w[7:0]`, the byte stored at the higher address (R8, R57). -/
def lowByte (w : Word) : Byte := w.extractLsb' 0 8

/-- The register index of a name: its backing offset, 2 * its position (R21, R25). -/
def Reg.index : Reg → RegIndex
  | .ip => 0x00 | .lr => 0x02 | .ac => 0x04 | .r1 => 0x06 | .r2 => 0x08 | .r3 => 0x0A | .r4 => 0x0C
  | .r5 => 0x0E | .r6 => 0x10 | .r7 => 0x12 | .r8 => 0x14 | .sp => 0x16 | .fp => 0x18

/-- The register an operand byte names, if it is one of the 13 valid indices (R25, R84). -/
def Reg.ofIndex (n : RegIndex) : Option Reg :=
  match n.toNat with
  | 0x00 => some .ip | 0x02 => some .lr | 0x04 => some .ac | 0x06 => some .r1 | 0x08 => some .r2
  | 0x0A => some .r3 | 0x0C => some .r4 | 0x0E => some .r5 | 0x10 => some .r6 | 0x12 => some .r7
  | 0x14 => some .r8 | 0x16 => some .sp | 0x18 => some .fp
  | _ => none

/-- One row of the opcode map: the format, with the instruction its operand bytes make. -/
inductive Shape where
  | n  (i : Instr)
  | r  (f : RegIndex → Instr)
  | rr (f : RegIndex → RegIndex → Instr)
  | i  (f : Word → Instr)

/-- The format of a row (R81). -/
def Shape.format : Shape → Format
  | .n _ => .n | .r _ => .r | .rr _ => .rr | .i _ => .i

/-- The opcode map (R88): 0x01 to 0x1D; every other byte is illegal (R89). -/
def opcodeShape (op : Byte) : Option Shape :=
  match op.toNat with
  | 0x01 => some (.rr .lw)
  | 0x02 => some (.rr .sw)
  | 0x03 => some (.rr .swp)
  | 0x04 => some (.r .psh)
  | 0x05 => some (.i .pshi)
  | 0x06 => some (.r .pop)
  | 0x07 => some (.i .jali)
  | 0x08 => some (.r .jal)
  | 0x09 => some (.n .ret)
  | 0x0A => some (.rr .add)
  | 0x0B => some (.rr .sub)
  | 0x0C => some (.rr .mult)
  | 0x0D => some (.rr .div)
  | 0x0E => some (.rr .mod)
  | 0x0F => some (.rr .and)
  | 0x10 => some (.rr .or)
  | 0x11 => some (.rr .xor)
  | 0x12 => some (.rr .lshft)
  | 0x13 => some (.rr .rshft)
  | 0x14 => some (.r .not)
  | 0x15 => some (.r .jr)
  | 0x16 => some (.i .ji)
  | 0x17 => some (.i .beq)
  | 0x18 => some (.i .bne)
  | 0x19 => some (.i .blt)
  | 0x1A => some (.i .ble)
  | 0x1B => some (.i .bgt)
  | 0x1C => some (.i .bge)
  | 0x1D => some (.n .hlt)
  | _ => none

/-- The length in bytes of a format (R80, R81). -/
def Format.length : Format → Nat
  | .n => 1 | .r => 2 | .rr => 3 | .i => 3

/-- Why a byte sequence is not an instruction. -/
inductive DecodeError where
  /-- The opcode byte is not in the map (R89). -/
  | unknownInstruction (op : Byte)
  /-- The bytes end before the instruction does; on the machine the fetch of the missing byte faults (R140, R141). -/
  | truncated
  deriving DecidableEq, Repr

/-- The decoder: the first instruction of a byte sequence and the bytes after it (R80 to R85). -/
def decode : List Byte → Except DecodeError (Instr × List Byte)
  | [] => .error .truncated
  | op :: rest =>
    match opcodeShape op with
    | none => .error (.unknownInstruction op)
    | some (.n i) => .ok (i, rest)
    | some (.r f) =>
      match rest with
      | ra :: rest' => .ok (f ra, rest')
      | _ => .error .truncated
    | some (.rr f) =>
      match rest with
      | ra :: rb :: rest' => .ok (f ra rb, rest')
      | _ => .error .truncated
    | some (.i f) =>
      match rest with
      | hi :: lo :: rest' => .ok (f (beWord hi lo), rest')
      | _ => .error .truncated

/-- The bytes of an `RR` instruction (R81). -/
def encodeRR (op : Byte) (ra rb : RegIndex) : List Byte := [op, ra, rb]

/-- The bytes of an `R` instruction (R81). -/
def encodeR (op : Byte) (ra : RegIndex) : List Byte := [op, ra]

/-- The bytes of an `I` instruction (R81): the immediate big-endian. -/
def encodeI (op : Byte) (imm : Word) : List Byte := [op, highByte imm, lowByte imm]

/-- The encoder: the bytes of an instruction, lowest address first (R81, R82, R88). -/
def encode : Instr → List Byte
  | .lw rd rs => encodeRR 0x01 rd rs
  | .sw rs rd => encodeRR 0x02 rs rd
  | .swp ra rb => encodeRR 0x03 ra rb
  | .psh rs => encodeR 0x04 rs
  | .pshi imm => encodeI 0x05 imm
  | .pop rd => encodeR 0x06 rd
  | .jali imm => encodeI 0x07 imm
  | .jal rs => encodeR 0x08 rs
  | .ret => [0x09]
  | .add ra rb => encodeRR 0x0A ra rb
  | .sub ra rb => encodeRR 0x0B ra rb
  | .mult ra rb => encodeRR 0x0C ra rb
  | .div ra rb => encodeRR 0x0D ra rb
  | .mod ra rb => encodeRR 0x0E ra rb
  | .and ra rb => encodeRR 0x0F ra rb
  | .or ra rb => encodeRR 0x10 ra rb
  | .xor ra rb => encodeRR 0x11 ra rb
  | .lshft ra rb => encodeRR 0x12 ra rb
  | .rshft ra rb => encodeRR 0x13 ra rb
  | .not ra => encodeR 0x14 ra
  | .jr rs => encodeR 0x15 rs
  | .ji imm => encodeI 0x16 imm
  | .beq imm => encodeI 0x17 imm
  | .bne imm => encodeI 0x18 imm
  | .blt imm => encodeI 0x19 imm
  | .ble imm => encodeI 0x1A imm
  | .bgt imm => encodeI 0x1B imm
  | .bge imm => encodeI 0x1C imm
  | .hlt => [0x1D]

/-- The format of an instruction (R81). -/
def Instr.format : Instr → Format
  | .ret | .hlt => .n
  | .psh _ | .pop _ | .jal _ | .not _ | .jr _ => .r
  | .pshi _ | .jali _ | .ji _ | .beq _ | .bne _ | .blt _ | .ble _ | .bgt _ | .bge _ => .i
  | .lw _ _ | .sw _ _ | .swp _ _ | .add _ _ | .sub _ _ | .mult _ _ | .div _ _ | .mod _ _
  | .and _ _ | .or _ _ | .xor _ _ | .lshft _ _ | .rshft _ _ => .rr

/-- How many bytes the longest instruction has (R80). -/
def maxLength : Nat := 3

/-- The bytes of an instruction whose `nbits` bits are `w`, numbered as spec/opcode_table.json numbers them: the whole
instruction read as one big-endian number, byte 0 in the most significant 8 bits (opening of spec/30_encoding.md). Bytes
after the `nbits` are 0, up to the longest instruction (log entry 8). -/
def tableBytes (nbits w : Nat) : List Byte :=
  (List.range maxLength).map fun k =>
    if 8 * (k + 1) ≤ nbits then BitVec.ofNat 8 (w >>> (nbits - 8 * (k + 1))) else 0

/-- The instruction the decoder reads from a word numbered as spec/opcode_table.json numbers it. -/
def decodeTableWord (nbits w : Nat) : Option Instr :=
  match decode (tableBytes nbits w) with
  | .ok (i, _) => some i
  | .error _ => none

end Sys2Proof
end

