-- ==== Sys2Proof/Config.lean ====
section
/-! DEFINITION. What an implementation fixes: the segment sizes (spec/00_scope.md R6), the reference configuration
`CFG0`, the clamp bounds of `sp`, and the one value the spec leaves free, the flags at reset (spec/10_state.md R40). -/

namespace Sys2Proof

/-- The five segment capacities in bytes, the named parameters of R6. They are fixed when the core is constructed. -/
structure Config where
  gpSize    : Nat
  progSize  : Nat
  stackSize : Nat
  ioSize    : Nat
  dispSize  : Nat
  deriving DecidableEq, Repr

/-- The reference configuration `CFG0` of R6. -/
def Config.cfg0 : Config :=
  { gpSize := 4096, progSize := 4096, stackSize := 1024, ioSize := 256, dispSize := 256 }

/-- The constraints R6 puts on a configuration; one outside them is not modelled (U9; log entry 12). -/
def Config.ok (c : Config) : Bool :=
  decide (2 ≤ c.gpSize) && decide (c.gpSize ≤ 65536) &&
  decide (2 ≤ c.progSize) && decide (c.progSize ≤ 65536) &&
  decide (2 ≤ c.stackSize) && decide (c.stackSize ≤ 65536) && decide (c.stackSize % 2 = 0) &&
  decide (1 ≤ c.ioSize) && decide (c.ioSize ≤ 65536) &&
  decide (1 ≤ c.dispSize) && decide (c.dispSize ≤ 65536)

/-- `SP_MIN`, the lower clamp bound of `sp` (R6, R143). -/
def Config.spMin : Nat := 0

/-- `SP_MAX = STACK_SIZE - 2`, the upper clamp bound and the reset value of `sp` (R6, R143). -/
def Config.spMax (c : Config) : Nat := c.stackSize - 2

/-- DESIGN CHOICE (log entry 1): the reset value of `Z`. R40 leaves it unspecified, "never ... a known value", so it is a
constant with no body: the parameter `FLAGS_RESET` of R7. Safe: no proof can evaluate it. -/
opaque Config.flagsResetZ : Bool

/-- DESIGN CHOICE (log entry 1): the reset value of `N`; see `Config.flagsResetZ`. Safe. -/
opaque Config.flagsResetN : Bool

/-- DESIGN CHOICE (log entry 1): the reset value of `V`; see `Config.flagsResetZ`. Safe. -/
opaque Config.flagsResetV : Bool

end Sys2Proof
end

