-- ==== Sys2Proof/Machine/State.lean ====
section
/-! DEFINITION. The state of the machine as plain data (spec/10_state.md R20), the causes of a fault
(spec/60_exceptions.md R241), the refusals, and the state after reset (spec/10_state.md R39, spec/70_reset_and_hazards.md R270). -/

namespace Sys2Proof.Machine

/-- The 13 registers of 16 bits (R21). None is hardwired, banked or aliased. -/
structure Regs where
  ip : Word
  lr : Word
  ac : Word
  r1 : Word
  r2 : Word
  r3 : Word
  r4 : Word
  r5 : Word
  r6 : Word
  r7 : Word
  r8 : Word
  sp : Word
  fp : Word
  deriving DecidableEq, Repr

/-- The three condition flags (R28). No instruction can name them as an operand. -/
structure Flags where
  z : Bool
  n : Bool
  v : Bool
  deriving DecidableEq, Repr

/-- The five memory segments (R34), each an address space of its own. -/
inductive Seg where
  | gp | prog | stack | io | disp
  deriving DecidableEq, Repr

/-- The contents of one segment: the bytes that are not 0, at strictly rising addresses. An address not listed reads as
0, the reset contents of every segment (R41; log entry 5). -/
abbrev Memory := List Host.Cell

/-- The causes of a fault (R241). The information carried with a cause is descriptive (R250; log entry 7). Raising one is
taken as a next state whose run state is `faulted` (log entry 3); `step` answers `Host.Outcome.fault` with the cause only
when it is asked to step a machine that already stands in that state (log entry 4). Safe: nothing runs after a fault. -/
inductive Fault where
  /-- Raised by a segment access whose address fails the bounds check: `fetch`, `fetchWord`, `LW`, `SW`, `push`, `pop`
  (R242). `addr` is the first address that failed. Safe: it is the spec's own fault. -/
  | addressOutOfBounds (seg : Seg) (addr : Nat)
  /-- Raised by a register access with an index that names no register (R243). Safe: it is the spec's own fault. -/
  | registerIndexNotFound (n : Byte)
  /-- Raised by `DIV` with a zero second operand (R244). Safe: it is the spec's own fault. -/
  | divideByZero
  /-- Raised by `MOD` with a zero second operand (R245). Safe: it is the spec's own fault. -/
  | moduloByZero
  /-- Raised by `step` on an opcode byte outside the map (R246). Safe: it is the spec's own fault. -/
  | unknownInstruction (op : Byte)
  /-- Raised by `LSHFT` and `RSHFT` with a negative count (R247). Safe: it is the spec's own fault. -/
  | shiftCountNegative
  deriving DecidableEq, Repr

/-- Why the model gives a request no meaning. -/
inductive Refusal where
  /-- Raised by `exec` for an instruction that has no meaning yet; no arm does so now. Safe: nothing follows from it. -/
  | notModelled (mnemonic : String)
  /-- Raised by `step` when the machine is halted: "there is no resume/restart" (R31, U7; log entry 4). Safe: the spec's
  step relation has no transition there. -/
  | halted
  deriving DecidableEq, Repr

/-- The run state `RS` (R31). -/
inductive RunState where
  | running
  | halted
  | faulted (cause : Fault)
  deriving DecidableEq, Repr

/-- The complete architectural state (R20), with the configuration the core was constructed with, which no step changes
(log entry 2). -/
structure State where
  cfg   : Config
  regs  : Regs
  flags : Flags
  rs    : RunState
  gp    : Memory
  prog  : Memory
  stack : Memory
  io    : Memory
  disp  : Memory
  deriving DecidableEq, Repr

/-- Every register after reset: 0 but for `sp`, which is `SP_MAX` (R39). -/
def Regs.reset (c : Config) : Regs :=
  { ip := 0, lr := 0, ac := 0, r1 := 0, r2 := 0, r3 := 0, r4 := 0, r5 := 0, r6 := 0, r7 := 0, r8 := 0,
    sp := BitVec.ofNat 16 c.spMax, fp := 0 }

/-- The flags after reset: unspecified, the parameter `FLAGS_RESET` (R40; log entry 1). -/
def Flags.reset : Flags :=
  { z := Config.flagsResetZ, n := Config.flagsResetN, v := Config.flagsResetV }

/-- The state that constructing the core with configuration `c` leaves (R39, R270). -/
def State.construct (c : Config) : State :=
  { cfg := c, regs := Regs.reset c, flags := Flags.reset, rs := .running,
    gp := [], prog := [], stack := [], io := [], disp := [] }

/-- The machine right after reset, with the reference configuration (R6, R39). -/
def State.reset : State := State.construct Config.cfg0

end Sys2Proof.Machine
end

