-- ==== Sys2Proof/Machine/Ops.lean ====
section
/-! DEFINITION. The named operations every instruction is written in: sparse memory, the segment access primitives
(spec/20_memory.md R51 to R55), registers by name, raising and taking a fault (spec/60_exceptions.md R240), fetch, jump,
push and pop (spec/41_fetch_step_run.md R140 to R145). -/

namespace Sys2Proof.Machine

/-- What a step or an instruction answers. -/
abbrev Answer := Host.Outcome State Fault Refusal

/-! ### Sparse memory -/

/-- The byte at an address: the one listed, else 0 (R41; log entry 5). -/
def Memory.get : Memory → Nat → Byte
  | [], _ => 0
  | (k, v) :: t, a => if k = a then v else Memory.get t a

/-- The memory with nothing listed at an address. -/
def Memory.erase : Memory → Nat → Memory
  | [], _ => []
  | (k, v) :: t, a => if k = a then Memory.erase t a else (k, v) :: Memory.erase t a

/-- The memory with one more entry, before the first higher address. -/
def Memory.insert : Memory → Nat → Byte → Memory
  | [], a, b => [(a, b)]
  | (k, v) :: t, a, b => if a < k then (a, b) :: (k, v) :: t else (k, v) :: Memory.insert t a b

/-- The memory after a byte is written; writing 0 removes the entry. -/
def Memory.set (m : Memory) (a : Nat) (b : Byte) : Memory :=
  if b = 0 then Memory.erase m a else Memory.insert (Memory.erase m a) a b

/-- The canonical form: strictly rising addresses and no entry that equals what an unlisted address reads as. -/
def Memory.wf : Memory → Bool
  | [] => true
  | [(_, v)] => v != 0
  | (k, v) :: (k', v') :: t => v != 0 && decide (k < k') && Memory.wf ((k', v') :: t)

/-- Every listed address is below a capacity. -/
def Memory.below (m : Memory) (cap : Nat) : Bool := m.all fun c => decide (c.1 < cap)

/-- The big-endian word at an address (R54, R57). -/
def Memory.getWord (m : Memory) (a : Nat) : Word := beWord (m.get a) (m.get (a + 1))

/-- The memory after a word is written, most significant byte first (R55, R57). -/
def Memory.setWord (m : Memory) (a : Nat) (w : Word) : Memory :=
  (m.set a (highByte w)).set (a + 1) (lowByte w)

/-! ### The state's parts by name -/

/-- `cap(S)`: the capacity of a segment (R34, R50). -/
def segCap (c : Config) : Seg → Nat
  | .gp => c.gpSize | .prog => c.progSize | .stack => c.stackSize | .io => c.ioSize | .disp => c.dispSize

/-- The contents of a segment (R34). -/
def State.seg (s : State) : Seg → Memory
  | .gp => s.gp | .prog => s.prog | .stack => s.stack | .io => s.io | .disp => s.disp

/-- The state with the contents of one segment replaced. -/
def State.setSeg (s : State) (g : Seg) (m : Memory) : State :=
  match g with
  | .gp => { s with gp := m }
  | .prog => { s with prog := m }
  | .stack => { s with stack := m }
  | .io => { s with io := m }
  | .disp => { s with disp := m }

/-- A register's value (R22). -/
def Regs.get (g : Regs) : Reg → Word
  | .ip => g.ip | .lr => g.lr | .ac => g.ac | .r1 => g.r1 | .r2 => g.r2 | .r3 => g.r3 | .r4 => g.r4
  | .r5 => g.r5 | .r6 => g.r6 | .r7 => g.r7 | .r8 => g.r8 | .sp => g.sp | .fp => g.fp

/-- The register file after a write to one register (R22). -/
def Regs.set (g : Regs) (r : Reg) (w : Word) : Regs :=
  match r with
  | .ip => { g with ip := w }
  | .lr => { g with lr := w }
  | .ac => { g with ac := w }
  | .r1 => { g with r1 := w }
  | .r2 => { g with r2 := w }
  | .r3 => { g with r3 := w }
  | .r4 => { g with r4 := w }
  | .r5 => { g with r5 := w }
  | .r6 => { g with r6 := w }
  | .r7 => { g with r7 := w }
  | .r8 => { g with r8 := w }
  | .sp => { g with sp := w }
  | .fp => { g with fp := w }

/-- `x[r]` by name (R10). -/
def State.reg (s : State) (r : Reg) : Word := s.regs.get r

/-- The state after `x[r] <- w` by name (R10). -/
def State.setReg (s : State) (r : Reg) (w : Word) : State := { s with regs := s.regs.set r w }

/-- The state with all three flags overwritten: they are always written as a unit (R127). -/
def State.setFlags (s : State) (f : Flags) : State := { s with flags := f }

/-- The state with another run state. -/
def State.setRs (s : State) (r : RunState) : State := { s with rs := r }

/-! ### Micro-operations and faults -/

/-- A micro-operation: it answers a value and the state after it, or the cause it raised and the state at the raise, with
every change made before the raise (spec/00_scope.md R11, R255). -/
abbrev Micro := EStateM Fault State

/-- `raise F(info)`: the instruction ends here (R10, R240). -/
def raise {α : Type} (c : Fault) : Micro α := fun s => .error c s

/-- TAKING A FAULT, the machine's only exception: `RS <- Faulted(cause)` and nothing else. Nothing is saved, `ip` is not
redirected, there is no vector, no mode and no mask (R240, R254; log entry 3). There is no return from a fault (R256), so
no operation stands beside this one. -/
def takeFault (c : Fault) (s : State) : State := s.setRs (.faulted c)

/-- An instruction's whole effect: the state its micro-operations leave, with a fault taken if one was raised (R240). -/
def perform (m : Micro Unit) (s : State) : Answer :=
  match m s with
  | .ok _ s' => .next s'
  | .error c s' => .next (takeFault c s')

/-- `x[r]` for a register given by name; it never raises (R10). -/
def readNamed (r : Reg) : Micro Word := fun s => .ok (s.reg r) s

/-- `x[r] <- w` for a register given by name; it never raises (R10). -/
def writeNamed (r : Reg) (w : Word) : Micro Unit := fun s => .ok () (s.setReg r w)

/-- `RS <- Halted` (R230). -/
def requestHalt : Micro Unit := fun s => .ok () (s.setRs .halted)

/-! ### Segment access -/

/-- `addressExists(S, addr)`: the bounds check, `BOUNDS_INCLUSIVE = false` (R51; log entry 6). -/
def addressExists (s : State) (g : Seg) (addr : Nat) : Bool := decide (addr < segCap s.cfg g)

/-- `MemRead(S, addr, 1)` (R52). -/
def memReadByte (g : Seg) (addr : Nat) : Micro Byte := fun s =>
  if addressExists s g addr then .ok ((s.seg g).get addr) s
  else .error (.addressOutOfBounds g addr) s

/-- `MemWrite(S, addr, 1, v)` (R53). -/
def memWriteByte (g : Seg) (addr : Nat) (b : Byte) : Micro Unit := fun s =>
  if addressExists s g addr then .ok () (s.setSeg g ((s.seg g).set addr b))
  else .error (.addressOutOfBounds g addr) s

/-- `MemRead(S, addr, 2)`: both addresses are checked, the lower one first, on unbounded integers (R54). -/
def memReadWord (g : Seg) (addr : Nat) : Micro Word := fun s =>
  if addressExists s g addr then
    if addressExists s g (addr + 1) then .ok ((s.seg g).getWord addr) s
    else .error (.addressOutOfBounds g (addr + 1)) s
  else .error (.addressOutOfBounds g addr) s

/-- `MemWrite(S, addr, 2, v)`: both checks precede both byte writes (R55). -/
def memWriteWord (g : Seg) (addr : Nat) (w : Word) : Micro Unit := fun s =>
  if addressExists s g addr then
    if addressExists s g (addr + 1) then .ok () (s.setSeg g ((s.seg g).setWord addr w))
    else .error (.addressOutOfBounds g (addr + 1)) s
  else .error (.addressOutOfBounds g addr) s

/-! ### Fetch, jump, push, pop -/

/-- `fetch()`: the byte at `ip`, then `ip + 1`, which wraps at 65536 (R140). -/
def fetch : Micro Byte := do
  let ip ← readNamed .ip
  let b ← memReadByte .prog ip.toNat
  writeNamed .ip (ip + 1)
  return b

/-- `fetchWord()`: the word at `ip` as one access, then `ip + 2` (R141). -/
def fetchWord : Micro Word := do
  let ip ← readNamed .ip
  let w ← memReadWord .prog ip.toNat
  writeNamed .ip (ip + 2)
  return w

/-- `jump(address)`: no check, no alignment, no link (R142). -/
def jump (address : Word) : Micro Unit := writeNamed .ip address

/-- Where `sp` goes after a push: down by 2, silently clamped at `SP_MIN` (R144). -/
def spAfterPush (sp : Word) : Word := if Config.spMin < sp.toNat then sp - 2 else sp

/-- Where `sp` goes before the read of a pop: up by 2, silently clamped at `SP_MAX` (R145). -/
def spForPop (c : Config) (sp : Word) : Word := if sp.toNat < c.spMax then sp + 2 else sp

/-- `push(v)`: write at `sp`, then move it (R144). -/
def push (v : Word) : Micro Unit := do
  let sp ← readNamed .sp
  memWriteWord .stack sp.toNat v
  writeNamed .sp (spAfterPush sp)

/-- `pop()`: move `sp`, then read there (R145). The increment stays when the read raises. -/
def pop : Micro Word := do
  let sp ← readNamed .sp
  let s ← get
  let sp' := spForPop s.cfg sp
  writeNamed .sp sp'
  memReadWord .stack sp'.toNat

end Sys2Proof.Machine
end

