-- ==== Sys2Proof/Machine/Operands.lean ====
section
/-! DEFINITION. Register operands: access by index, checked at the access and not at decode (spec/10_state.md R25,
spec/30_encoding.md R84). It is the only operand form besides the immediate, which the decoder assembles (R85), and
register-held addresses are used unsigned with nothing added (spec/42_load_store.md R162). -/

namespace Sys2Proof.Machine

/-- `x[n]`: the value of the register at backing offset `n` (R25). -/
def readReg (n : RegIndex) : Micro Word := fun s =>
  match Reg.ofIndex n with
  | some r => .ok (s.reg r) s
  | none => .error (.registerIndexNotFound n) s

/-- `x[n] <- v` (R25). -/
def writeReg (n : RegIndex) (v : Word) : Micro Unit := fun s =>
  match Reg.ofIndex n with
  | some r => .ok () (s.setReg r v)
  | none => .error (.registerIndexNotFound n) s

end Sys2Proof.Machine
end

