-- ==== Sys2Proof/Machine/Flags.lean ====
section
/-! DEFINITION. The arithmetic-logic unit: the eleven operators, the flags from the raw result, and the two templates of
the ALU instructions (spec/40_alu_unit.md R110 to R128, spec/41_fetch_step_run.md R150). -/

namespace Sys2Proof.Machine

/-- `u16(v)`: an unbounded integer truncated to a word (R9). -/
def u16 (v : Int) : Word := BitVec.ofInt 16 v

/-- `s16(w)`: a word reinterpreted as signed two's complement (R9, R111). -/
def s16 (w : Word) : Int := w.toInt

/-- The closed set of operators (R110). `UnknownOperator` cannot arise (R124, R248). -/
inductive AluOp where
  | add | sub | mul | div | rem | and | or | xor | lshift | rshift | not
  deriving DecidableEq, Repr

/-- The raw, unwrapped result of an operator on two words, or the cause it raises (R113 to R123). Both operands are
reinterpreted as signed first (R111); `DIV_MODE = floor`, `RSHIFT_MODE = signed` (R7; log entry 6). -/
def rawResult (op : AluOp) (a b : Word) : Except Fault Int :=
  match op with
  | .add => .ok (s16 a + s16 b)
  | .sub => .ok (s16 a - s16 b)
  | .mul => .ok (s16 a * s16 b)
  | .div => if s16 b = 0 then .error .divideByZero else .ok (Int.fdiv (s16 a) (s16 b))
  | .rem => if s16 b = 0 then .error .moduloByZero else .ok (s16 a - s16 b * Int.fdiv (s16 a) (s16 b))
  | .and => .ok (s16 (a &&& b))
  | .or => .ok (s16 (a ||| b))
  | .xor => .ok (s16 (a ^^^ b))
  | .lshift => if s16 b < 0 then .error .shiftCountNegative else .ok (s16 a * ((2 ^ (s16 b).toNat : Nat) : Int))
  | .rshift => if s16 b < 0 then .error .shiftCountNegative else .ok (Int.fdiv (s16 a) ((2 ^ (s16 b).toNat : Nat) : Int))
  | .not => .ok (-s16 a - 1)

/-- The flags `compute` starts from (R112). They show only when the operator raises. -/
def flagsBefore : Flags := { z := true, n := false, v := false }

/-- The flags of a raw result (R125): functions of the unwrapped result, not of the 16 bits stored. -/
def flagsOf (raw : Int) : Flags :=
  { z := decide (raw = 0), n := decide (raw < 0), v := decide (65535 < raw.natAbs) }

/-- `compute(op, a, b)`: reset the flags, then the raw result and its flags (R110). -/
def compute (op : AluOp) (a b : Word) : Micro Int := fun s =>
  match rawResult op a b with
  | .ok raw => .ok raw (s.setFlags (flagsOf raw))
  | .error c => .error c (s.setFlags flagsBefore)

/-- The template of a binary ALU instruction, after its operand bytes are fetched (R150): read both registers in operand
order, compute, store the low 16 bits in `ac`. -/
def alu2 (op : AluOp) (ra rb : RegIndex) : Micro Unit := do
  let a ← readReg ra
  let b ← readReg rb
  let raw ← compute op a b
  writeNamed .ac (u16 raw)

/-- The template of the unary ALU instruction (R150): the second operand is 0 and is ignored. -/
def alu1 (op : AluOp) (ra : RegIndex) : Micro Unit := do
  let a ← readReg ra
  let raw ← compute op a 0
  writeNamed .ac (u16 raw)

end Sys2Proof.Machine
end

