-- ==== Sys2Proof/Machine/Arithmetic.lean ====
section
/-! DEFINITION. The arithmetic instructions (spec/45_arithmetic.md): the result goes to `ac`, the flags come from the raw
result. -/

namespace Sys2Proof.Machine

/-- `ADD r1,r2` (R190). -/
def execAdd (ra rb : RegIndex) (s : State) : Answer := perform (alu2 .add ra rb) s

/-- `SUB r1,r2` (R191). -/
def execSub (ra rb : RegIndex) (s : State) : Answer := perform (alu2 .sub ra rb) s

/-- `MULT r1,r2` (R192). -/
def execMult (ra rb : RegIndex) (s : State) : Answer := perform (alu2 .mul ra rb) s

/-- `DIV r1,r2` (R193). -/
def execDiv (ra rb : RegIndex) (s : State) : Answer := perform (alu2 .div ra rb) s

/-- `MOD r1,r2` (R194). -/
def execMod (ra rb : RegIndex) (s : State) : Answer := perform (alu2 .rem ra rb) s

end Sys2Proof.Machine
end

