-- ==== Sys2Proof/Machine/CallReturn.lean ====
section
/-! DEFINITION. The call and return opcodes, `CALL_MODE = noop`: their operand bytes have been consumed by the fetch and
they change nothing else (spec/44_call_return.md; log entry 6). -/

namespace Sys2Proof.Machine

/-- `JALI imm16` (R180): the immediate is discarded. -/
def execJali (_imm : Word) (s : State) : Answer := perform (pure ()) s

/-- `JAL rs` (R181): the operand byte is discarded, so it is not checked. -/
def execJal (_rs : RegIndex) (s : State) : Answer := perform (pure ()) s

/-- `RET` (R182). -/
def execRet (s : State) : Answer := perform (pure ()) s

end Sys2Proof.Machine
end

