-- ==== Sys2Proof/Machine/ControlFlow.lean ====
section
/-! DEFINITION. Jumps and conditional branches (spec/47_control_flow.md). Targets are absolute addresses in `PROG`; the
next fetch checks them, not the jump. -/

namespace Sys2Proof.Machine

/-- `JR rs` (R210). -/
def execJr (rs : RegIndex) (s : State) : Answer :=
  perform (do
    let t ← readReg rs
    jump t) s

/-- `JI imm16` (R211). -/
def execJi (imm : Word) (s : State) : Answer := perform (jump imm) s

/-- The branch template (R212), after the immediate is fetched: taken, `ip` becomes the immediate; not taken, `ip` stays
at the next instruction. It reads the flags and writes none. -/
def branch (cond : Flags → Bool) (imm : Word) : Micro Unit := fun s =>
  .ok () (if cond s.flags then s.setReg .ip imm else s)

/-- `BEQ imm16` (R213): taken iff `Z`. -/
def execBeq (imm : Word) (s : State) : Answer := perform (branch (fun f => f.z) imm) s

/-- `BNE imm16` (R214): taken iff not `Z`. -/
def execBne (imm : Word) (s : State) : Answer := perform (branch (fun f => !f.z) imm) s

/-- `BLT imm16` (R215): taken iff `N`. -/
def execBlt (imm : Word) (s : State) : Answer := perform (branch (fun f => f.n) imm) s

/-- `BLE imm16` (R216): taken iff `N` or `Z`. -/
def execBle (imm : Word) (s : State) : Answer := perform (branch (fun f => f.n || f.z) imm) s

/-- `BGT imm16` (R217): taken iff not `N`; so it is taken on a zero result. -/
def execBgt (imm : Word) (s : State) : Answer := perform (branch (fun f => !f.n) imm) s

/-- `BGE imm16` (R218): taken iff (not `N`) or `Z`. -/
def execBge (imm : Word) (s : State) : Answer := perform (branch (fun f => !f.n || f.z) imm) s

end Sys2Proof.Machine
end

