-- ==== Sys2Proof/Machine/Halt.lean ====
section
/-! DEFINITION. Halt (spec/48_halt.md). -/

namespace Sys2Proof.Machine

/-- `HLT` (R230): `RS <- Halted`, nothing else. -/
def execHlt (s : State) : Answer := perform requestHalt s

end Sys2Proof.Machine
end

