-- ==== Sys2Proof/Machine/LoadStore.lean ====
section
/-! DEFINITION. Load and store (spec/42_load_store.md). -/

namespace Sys2Proof.Machine

/-- `LW rd,rs` (R160). -/
def execLw (rd rs : RegIndex) (s : State) : Answer :=
  perform (do
    let addr ← readReg rs
    let v ← memReadWord .gp addr.toNat
    writeReg rd v) s

/-- `SW rs,rd` (R161): the value's register is read before the address's. -/
def execSw (rs rd : RegIndex) (s : State) : Answer :=
  perform (do
    let v ← readReg rs
    let addr ← readReg rd
    memWriteWord .gp addr.toNat v) s

end Sys2Proof.Machine
end

