-- ==== Sys2Proof/Machine/Logical.lean ====
section
/-! DEFINITION. The logical and shift instructions (spec/46_logical.md): the same dispatch pattern as arithmetic. -/

namespace Sys2Proof.Machine

/-- `AND r1,r2` (R200). -/
def execAnd (ra rb : RegIndex) (s : State) : Answer := perform (alu2 .and ra rb) s

/-- `OR r1,r2` (R201). -/
def execOr (ra rb : RegIndex) (s : State) : Answer := perform (alu2 .or ra rb) s

/-- `XOR r1,r2` (R202). -/
def execXor (ra rb : RegIndex) (s : State) : Answer := perform (alu2 .xor ra rb) s

/-- `LSHFT r1,r2` (R203). -/
def execLshft (ra rb : RegIndex) (s : State) : Answer := perform (alu2 .lshift ra rb) s

/-- `RSHFT r1,r2` (R204). -/
def execRshft (ra rb : RegIndex) (s : State) : Answer := perform (alu2 .rshift ra rb) s

/-- `NOT r1` (R205): unary; the result goes to `ac`, not back to the operand. -/
def execNot (ra : RegIndex) (s : State) : Answer := perform (alu1 .not ra) s

end Sys2Proof.Machine
end

