-- ==== Sys2Proof/Machine/MoveStack.lean ====
section
/-! DEFINITION. Register exchange and stack instructions (spec/43_move_stack.md). -/

namespace Sys2Proof.Machine

/-- `SWP r1,r2` (R170), literally in the pseudocode's order: the second register is read after the first push, so a
second operand that names `sp` reads the moved `sp` (log entry 9). -/
def execSwp (ra rb : RegIndex) (s : State) : Answer :=
  perform (do
    let a ← readReg ra
    push a
    let b ← readReg rb
    push b
    let x ← pop
    writeReg ra x
    let y ← pop
    writeReg rb y) s

/-- `PSH rs` (R171). -/
def execPsh (rs : RegIndex) (s : State) : Answer :=
  perform (do
    let v ← readReg rs
    push v) s

/-- `PSHI imm16` (R172). -/
def execPshi (imm : Word) (s : State) : Answer := perform (push imm) s

/-- `POP rd` (R173): the pop is done before the destination index is checked. -/
def execPop (rd : RegIndex) (s : State) : Answer :=
  perform (do
    let v ← pop
    writeReg rd v) s

end Sys2Proof.Machine
end

