-- ==== Sys2Proof/Machine/Dispatch.lean ====
section
/-! DEFINITION. The dispatch over the closed opcode set (spec/41_fetch_step_run.md R147): one arm per instruction. The
instruction's bytes have been fetched, so `ip` already points at the next instruction (R149). -/

namespace Sys2Proof.Machine

def exec (i : Instr) (s : State) : Host.Outcome State Fault Refusal :=
  match i with
  | .lw rd rs => Sys2Proof.Machine.execLw rd rs s
  | .sw rs rd => Sys2Proof.Machine.execSw rs rd s
  | .swp ra rb => Sys2Proof.Machine.execSwp ra rb s
  | .psh rs => Sys2Proof.Machine.execPsh rs s
  | .pshi imm => Sys2Proof.Machine.execPshi imm s
  | .pop rd => Sys2Proof.Machine.execPop rd s
  | .jali imm => Sys2Proof.Machine.execJali imm s
  | .jal rs => Sys2Proof.Machine.execJal rs s
  | .ret => Sys2Proof.Machine.execRet s
  | .add ra rb => Sys2Proof.Machine.execAdd ra rb s
  | .sub ra rb => Sys2Proof.Machine.execSub ra rb s
  | .mult ra rb => Sys2Proof.Machine.execMult ra rb s
  | .div ra rb => Sys2Proof.Machine.execDiv ra rb s
  | .mod ra rb => Sys2Proof.Machine.execMod ra rb s
  | .and ra rb => Sys2Proof.Machine.execAnd ra rb s
  | .or ra rb => Sys2Proof.Machine.execOr ra rb s
  | .xor ra rb => Sys2Proof.Machine.execXor ra rb s
  | .lshft ra rb => Sys2Proof.Machine.execLshft ra rb s
  | .rshft ra rb => Sys2Proof.Machine.execRshft ra rb s
  | .not ra => Sys2Proof.Machine.execNot ra s
  | .jr rs => Sys2Proof.Machine.execJr rs s
  | .ji imm => Sys2Proof.Machine.execJi imm s
  | .beq imm => Sys2Proof.Machine.execBeq imm s
  | .bne imm => Sys2Proof.Machine.execBne imm s
  | .blt imm => Sys2Proof.Machine.execBlt imm s
  | .ble imm => Sys2Proof.Machine.execBle imm s
  | .bgt imm => Sys2Proof.Machine.execBgt imm s
  | .bge imm => Sys2Proof.Machine.execBge imm s
  | .hlt => Sys2Proof.Machine.execHlt s

end Sys2Proof.Machine
end

