-- ==== Sys2Proof/Machine/Fetch.lean ====
section
/-! DEFINITION. Fetching one instruction: the opcode byte, its lookup, and the operand bytes its format has
(spec/41_fetch_step_run.md R147, R149; spec/30_encoding.md R80, R83, R89). -/

namespace Sys2Proof.Machine

/-- Fetch the operand bytes of a row and make its instruction: each register operand by one `fetch`, an immediate by one
`fetchWord` (R80, R149 (2)). -/
def fetchOperands : Shape → Micro Instr
  | .n i => return i
  | .r f => do
    let ra ← fetch
    return f ra
  | .rr f => do
    let ra ← fetch
    let rb ← fetch
    return f ra rb
  | .i f => do
    let w ← fetchWord
    return f w

/-- Fetch and decode one instruction. An opcode outside the map raises `UnknownInstruction` with `ip` past it and no
operand byte fetched (R89). -/
def fetchInstr : Micro Instr := do
  let op ← fetch
  match opcodeShape op with
  | some sh => fetchOperands sh
  | none => raise (.unknownInstruction op)

/-- Put bytes into `PROG` at the addresses the fetches of an instruction at `ip` read: `ip`, `ip + 1`, ... as word values.
An address outside the segment takes no byte. -/
def placeAt (s : State) (ip : Word) : List Byte → State
  | [] => s
  | b :: bs =>
    let s' := if addressExists s .prog ip.toNat then s.setSeg .prog (s.prog.set ip.toNat b) else s
    placeAt s' (ip + 1) bs

end Sys2Proof.Machine
end

