-- ==== Sys2Proof/Machine/Step.lean ====
section
/-! DEFINITION. One step (spec/41_fetch_step_run.md R147): fetch one instruction, perform it. -/

namespace Sys2Proof.Machine

/-- `step()` (R147). It is defined only when `RS` is `Running`: a halted machine is refused, and a faulted one answers the
fault it stands in (U7; log entry 4). A fault raised by a fetch is taken like any other (R240). -/
def step (s : State) : Host.Outcome State Fault Refusal :=
  match s.rs with
  | .halted => .refused .halted
  | .faulted c => .fault c
  | .running =>
    match fetchInstr s with
    | .ok i s' => exec i s'
    | .error c s' => .next (takeFault c s')

/-- The state with an instruction's bytes stored in `PROG` at `ip`, where `step` fetches it, and the machine running. It
stands for the host's load of a program (log entry 8). -/
def State.withFetchWord (s : State) (nbits w : Nat) : State :=
  (placeAt s (s.reg .ip) (tableBytes nbits w)).setRs .running

end Sys2Proof.Machine
end

