-- ==== Sys2Proof/Machine/Assembly.lean ====
section
/-! DEFINITION. What the spec fixes of the assembler's side: mnemonics, register names, and the one pseudo-instruction
(spec/30_encoding.md R91, R92, R94). The Program Builder itself is out of scope (spec/00_scope.md R4). -/

namespace Sys2Proof

/-- A register's name (R91). -/
def Reg.name : Reg → String
  | .ip => "ip" | .lr => "lr" | .ac => "ac" | .r1 => "r1" | .r2 => "r2" | .r3 => "r3" | .r4 => "r4"
  | .r5 => "r5" | .r6 => "r6" | .r7 => "r7" | .r8 => "r8" | .sp => "sp" | .fp => "fp"

/-- The 13 registers in the order of the register file (spec/10_state.md R21). -/
def Reg.all : List Reg := [.ip, .lr, .ac, .r1, .r2, .r3, .r4, .r5, .r6, .r7, .r8, .sp, .fp]

/-- `getRegisterIndex(name)`: the index of a name; `none` is the assembler-time failure `RegisterNotFound` (R92). -/
def getRegisterIndex (name : String) : Option RegIndex :=
  (Reg.all.find? fun r => decide (r.name = name)).map Reg.index

/-- The mnemonic of an instruction (R88, R91). -/
def Instr.mnemonic : Instr → String
  | .lw _ _ => "LW" | .sw _ _ => "SW" | .swp _ _ => "SWP" | .psh _ => "PSH" | .pshi _ => "PSHI"
  | .pop _ => "POP" | .jali _ => "JALI" | .jal _ => "JAL" | .ret => "RET" | .add _ _ => "ADD"
  | .sub _ _ => "SUB" | .mult _ _ => "MULT" | .div _ _ => "DIV" | .mod _ _ => "MOD" | .and _ _ => "AND"
  | .or _ _ => "OR" | .xor _ _ => "XOR" | .lshft _ _ => "LSHFT" | .rshft _ _ => "RSHFT" | .not _ => "NOT"
  | .jr _ => "JR" | .ji _ => "JI" | .beq _ => "BEQ" | .bne _ => "BNE" | .blt _ => "BLT" | .ble _ => "BLE"
  | .bgt _ => "BGT" | .bge _ => "BGE" | .hlt => "HLT"

/-- The pseudo-instruction `MOV rd,imm16` as the assembler expands it (R94). -/
def movExpansion (rd : RegIndex) (imm : Word) : List Instr := [.pshi imm, .pop rd]

end Sys2Proof
end

