-- ==== Sys2Proof/Machine/Load.lean ====
section
/-! DEFINITION. The host's side of one CPU before a run: where it stands in its lifecycle, construction within the
constraints, and program load (spec/70_reset_and_hazards.md R270, R272 to R277). -/

namespace Sys2Proof.Machine

/-- Where one CPU stands in its lifecycle (R277). The spec gives it no state of its own; the model keeps it beside the
machine, so that what the spec refuses is refused (log entry 11). -/
inductive Phase where
  /-- Constructed, nothing loaded: the one phase in which a load is called (R276). -/
  | constructed
  /-- A load has succeeded. -/
  | loaded
  /-- A load has failed: "the core must not be run" (R273). -/
  | loadFailed
  /-- A step or a run has been asked for. -/
  | started
  deriving DecidableEq, Repr

/-- One CPU as the host holds it: the machine, the label table (R275; no instruction reads it, 10_state.md R38) and the
phase. -/
structure Session where
  core   : State
  labels : List (String × Nat)
  phase  : Phase
  deriving DecidableEq, Repr

/-- Why the model gives a host operation no meaning. Each is safe: the spec refuses the operation too. -/
inductive HostRefusal where
  /-- Raised by construction outside the constraints of R6 (U9; log entry 12). -/
  | badConfiguration
  /-- Raised by `loadProgram` on a CPU that a load or a run has already been asked of (R276, U8; log entry 11). -/
  | secondOrLateLoad
  /-- Raised by `loadProgram` with a `byte_count` that is not the true total length (R272, U10; log entry 11). -/
  | falseByteCount
  /-- Raised by a step or a run after a failed load (R273). -/
  | loadHasFailed
  /-- Raised by a step when `RS` is not `Running` (R279, U7; log entry 4). -/
  | notRunning
  deriving DecidableEq, Repr

/-- Reset as the host's operation (R270). -/
def Session.construct (c : Config) : Except HostRefusal Session :=
  if c.ok then .ok { core := State.construct c, labels := [], phase := .constructed } else .error .badConfiguration

/-- What `loadProgram` answers. -/
inductive LoadAnswer where
  /-- The program is in `PROG`, and the label table maps each function to its start offset (R275). -/
  | loaded (h : Session)
  /-- `ProgramTooLarge`: nothing is written and the core must not be run (R249, R273). -/
  | programTooLarge (h : Session)
  /-- A byte write raised the fault `c`. With the true `byte_count` and the size check passed, none does. -/
  | outOfBounds (c : Fault)
  /-- The operation has no meaning here (R272, R276). -/
  | refused (r : HostRefusal)
  deriving DecidableEq, Repr

/-- The inner loop of R274: one byte write per byte of a function. -/
def loadBytes : List Byte → Nat → Micro Unit
  | [], _ => return ()
  | b :: bs, addr => do
    memWriteByte .prog addr b
    loadBytes bs (addr + 1)

/-- The outer loop of R274: a label per function, its bytes, then one padding byte that is not written. -/
def loadFunctions : List (String × List Byte) → Nat → Micro (List (String × Nat))
  | [], _ => return []
  | (name, bytes) :: fs, offset => do
    loadBytes bytes offset
    let labels ← loadFunctions fs (offset + bytes.length + 1)
    return (name, offset) :: labels

/-- The true `byte_count` of a load: the sum of the lengths of its functions (R272). -/
def trueByteCount (functions : List (String × List Byte)) : Nat := (functions.map fun f => f.2.length).sum

/-- The size check and the layout of a load, on a CPU that may still be loaded (R273, R274). The core trusts `byte_count`
in the size check (R272); a load that passes it with a false one has no meaning (U10). -/
def loadImage (functions : List (String × List Byte)) (byteCount : Nat) (h : Session) : LoadAnswer :=
  if h.core.cfg.progSize ≤ byteCount + functions.length then .programTooLarge { h with phase := .loadFailed }
  else if byteCount ≠ trueByteCount functions then .refused .falseByteCount
  else
    match loadFunctions functions 0 h.core with
    | .ok labels s => .loaded { core := s, labels := labels, phase := .loaded }
    | .error c _ => .outOfBounds c

/-- `loadProgram(functions, byte_count)` (R272 to R274), "called once before `run`": a second or a late call is refused
(R276, U8). -/
def loadProgram (functions : List (String × List Byte)) (byteCount : Nat) (h : Session) : LoadAnswer :=
  match h.phase with
  | .constructed => loadImage functions byteCount h
  | .loaded => .refused .secondOrLateLoad
  | .loadFailed => .refused .secondOrLateLoad
  | .started => .refused .secondOrLateLoad

end Sys2Proof.Machine
end

