-- ==== Sys2Proof/Machine/Run.lean ====
section
/-! DEFINITION. The run loop (spec/41_fetch_step_run.md R148, R151) with fuel, since a run may never end (U14). -/

namespace Sys2Proof.Machine

/-- The continuation flag `step` returns (R147): keep running, unless a halt was requested or a fault was taken. -/
def continues (s : State) : Bool := decide (s.rs = .running)

/-- `run()`: step while `RS` is `Running`, at most `fuel` times (R148; log entry 13). -/
def run : Nat → State → State
  | 0, s => s
  | fuel + 1, s =>
    if continues s then
      match step s with
      | .next s' => run fuel s'
      | .fault _ => s
      | .refused _ => s
    else s

end Sys2Proof.Machine
end

