-- ==== Sys2Proof/Machine/Lifecycle.lean ====
section
/-! DEFINITION. The host's step and run of one CPU (spec/70_reset_and_hazards.md R277, R279). A run with nothing loaded is
defined (U8); after a failed load nothing is run (R273). -/

namespace Sys2Proof.Machine

/-- The host asks for one step: "call it only while `RS = Running`" (R279). -/
def Session.step (h : Session) : Except HostRefusal Session :=
  match h.phase with
  | .loadFailed => .error .loadHasFailed
  | .constructed | .loaded | .started =>
    match Sys2Proof.Machine.step h.core with
    | .next s => .ok { h with core := s, phase := .started }
    | .fault _ => .error .notRunning
    | .refused _ => .error .notRunning

/-- The host asks for the run, of at most `fuel` steps (R148; log entry 13). R279 has the host ask "once", and "instead
of" stepping, and the spec leaves a second run without meaning (91_not_in_source.md N19). DESIGN CHOICE (log entry 15): a run
asked for again, or after steps, is R148's loop from where the CPU stands, so one asked of a CPU that is already halted or
faulted takes no step and leaves the core as it is; it is not refused. -/
def Session.run (fuel : Nat) (h : Session) : Except HostRefusal Session :=
  match h.phase with
  | .loadFailed => .error .loadHasFailed
  | .constructed | .loaded | .started =>
    .ok { h with core := Sys2Proof.Machine.run fuel h.core, phase := .started }

end Sys2Proof.Machine
end

