-- ==== Sys2Proof/Safety.lean ====
section
/-! DEFINITION. What counts as a good state, a safe run and a successful end, in the terms the statements use. -/

namespace Sys2Proof.Machine

/-- A run has ended successfully iff `RS` is `Halted` (spec/41_fetch_step_run.md R151). -/
def endedSuccessfully (s : State) : Bool := decide (s.rs = .halted)

/-- A segment's contents are in canonical form and within its capacity. -/
def segOk (s : State) (g : Seg) : Bool := (s.seg g).wf && (s.seg g).below (segCap s.cfg g)

/-- The invariant of every machine that was constructed within the constraints of R6: the configuration is legal, every
segment is canonical and holds no byte outside its capacity. -/
def State.inv (s : State) : Bool :=
  s.cfg.ok && segOk s .gp && segOk s .prog && segOk s .stack && segOk s .io && segOk s .disp

/-- The stack pointer is where a program that moves it by push and pop alone keeps it: even, within `[0, SP_MAX]`
(spec/41_fetch_step_run.md R146). -/
def State.spOk (s : State) : Bool := decide ((s.reg .sp).toNat % 2 = 0) && decide ((s.reg .sp).toNat ≤ s.cfg.spMax)

/-- The three bytes the fetches of an instruction at `ip` can read, at `ip`, `ip + 1`, `ip + 2` as word values. -/
def State.window (s : State) : List Byte :=
  [s.prog.get (s.reg .ip).toNat, s.prog.get (s.reg .ip + 1).toNat, s.prog.get (s.reg .ip + 2).toNat]

/-- Every fetch of an instruction of a format stays inside `PROG`: one byte at a time, but the immediate as one word
access, whose second address does not wrap (spec/41_fetch_step_run.md R140, R141). -/
def State.fetchFits (s : State) : Format → Bool
  | .n => addressExists s .prog (s.reg .ip).toNat
  | .r => addressExists s .prog (s.reg .ip).toNat && addressExists s .prog (s.reg .ip + 1).toNat
  | .rr =>
    addressExists s .prog (s.reg .ip).toNat && addressExists s .prog (s.reg .ip + 1).toNat &&
      addressExists s .prog (s.reg .ip + 2).toNat
  | .i => addressExists s .prog (s.reg .ip).toNat && addressExists s .prog ((s.reg .ip + 1).toNat + 1)

/-- Where the function at position `k` of a load starts: one padding byte after each function before it
(spec/70_reset_and_hazards.md R274). -/
def functionOffset (functions : List (String × List Byte)) (k : Nat) : Nat :=
  ((functions.take k).map fun f => f.2.length + 1).sum

end Sys2Proof.Machine

namespace Sys2Proof

/-- The operand bytes through which an instruction writes a register (R160, R170, R173). The ALU instructions write `ac`
and the jumps `ip`, by name. -/
def Instr.destinations : Instr → List RegIndex
  | .lw rd _ => [rd]
  | .swp ra rb => [ra, rb]
  | .pop rd => [rd]
  | .sw _ _ | .psh _ | .pshi _ | .jali _ | .jal _ | .ret => []
  | .add _ _ | .sub _ _ | .mult _ _ | .div _ _ | .mod _ _ => []
  | .and _ _ | .or _ _ | .xor _ _ | .lshft _ _ | .rshft _ _ | .not _ => []
  | .jr _ | .ji _ | .beq _ | .bne _ | .blt _ | .ble _ | .bgt _ | .bge _ | .hlt => []

/-- The eleven instructions that call the ALU, the only writers of the flags and of `ac` by name (spec/10_state.md R29). -/
def Instr.callsAlu : Instr → Bool
  | .add _ _ | .sub _ _ | .mult _ _ | .div _ _ | .mod _ _ => true
  | .and _ _ | .or _ _ | .xor _ _ | .lshft _ _ | .rshft _ _ | .not _ => true
  | .lw _ _ | .sw _ _ | .swp _ _ | .psh _ | .pshi _ | .pop _ | .jali _ | .jal _ | .ret => false
  | .jr _ | .ji _ | .beq _ | .bne _ | .blt _ | .ble _ | .bgt _ | .bge _ | .hlt => false

end Sys2Proof
end

