-- ==== Sys2Proof/WellFormed.lean ====
section
/-! DEFINITION. Which instructions name only registers that exist. The encoding forbids no operand (spec/30_encoding.md
R86), so every `Instr` can be encoded and decoded; well-formedness is the check that an assembler makes (R92) and that the
machine makes at each register access (spec/10_state.md R25). -/

namespace Sys2Proof

/-- An operand byte that is one of the 13 register indices (R25, R84). -/
def validIndex (n : RegIndex) : Bool := (Reg.ofIndex n).isSome

/-- Every operand that the instruction uses as a register is a valid index. `JAL` does not use its operand, so all its
values are legal (R90, R181); immediates are unrestricted (R85, R86). -/
def Instr.wellFormed : Instr → Bool
  | .lw rd rs => validIndex rd && validIndex rs
  | .sw rs rd => validIndex rs && validIndex rd
  | .swp ra rb => validIndex ra && validIndex rb
  | .psh rs => validIndex rs
  | .pop rd => validIndex rd
  | .add ra rb => validIndex ra && validIndex rb
  | .sub ra rb => validIndex ra && validIndex rb
  | .mult ra rb => validIndex ra && validIndex rb
  | .div ra rb => validIndex ra && validIndex rb
  | .mod ra rb => validIndex ra && validIndex rb
  | .and ra rb => validIndex ra && validIndex rb
  | .or ra rb => validIndex ra && validIndex rb
  | .xor ra rb => validIndex ra && validIndex rb
  | .lshft ra rb => validIndex ra && validIndex rb
  | .rshft ra rb => validIndex ra && validIndex rb
  | .not ra => validIndex ra
  | .jr rs => validIndex rs
  | .jal _ => true
  | .pshi _ | .jali _ | .ji _ | .beq _ | .bne _ | .blt _ | .ble _ | .bgt _ | .bge _ => true
  | .ret | .hlt => true

end Sys2Proof
end

