-- ==== Sys2Proof/Certificates/Slice0/Obligations.lean ====
section
/-! DEFINITION. The statements for the provers. A word's signed reading is `BitVec.toInt`, its unsigned reading
`BitVec.toNat`. A statement whose conclusion is `exec i s = .next t` for an explicit `t` is also its frame: `t` is `s` with
the named updates and nothing else changed. That an instruction or a step that raises a fault answers a next state, with
`rs` holding the cause, is the model's form (log entry 3). -/

open Sys2Proof Sys2Proof.Machine

/-! ### Encoding -/

/-- Decoding the bytes of any instruction, whatever follows them, gives that instruction and what follows
(spec/30_encoding.md R81, R82, R85, R88). -/
def Obligations.DecodeOfEncodeIsTheInstruction : Prop :=
  ∀ (i : Instr) (rest : List Byte), decode (encode i ++ rest) = .ok (i, rest)

/-- Bytes that decode are the encoding of what they decode to, so every byte sequence has at most one reading and no bit of
an operand is dropped (R81, R86, R90). -/
def Obligations.DecodedBytesAreTheInstructionsEncoding : Prop :=
  ∀ (bytes rest : List Byte) (i : Instr), decode bytes = .ok (i, rest) → bytes = encode i ++ rest

/-- The length of an instruction depends on its opcode byte alone (R83). -/
def Obligations.LengthDependsOnTheOpcodeByteAlone : Prop :=
  ∀ (op : Byte) (b b' r r' : List Byte) (i i' : Instr),
    decode (op :: b) = .ok (i, r) → decode (op :: b') = .ok (i', r') →
      i.format = i'.format ∧ b.length + 1 = i.format.length + r.length

/-- One word of each of the 29 instructions, its bytes written out from the spec's encodings, decodes to that instruction
(spec/95_test_vectors.md E1 to E29; R88). -/
def Obligations.WordsWrittenOutFromTheSpecDecode : Prop :=
  decode [0x01, 0x06, 0x08] = .ok (.lw 0x06 0x08, []) ∧
  decode [0x02, 0x0A, 0x0C] = .ok (.sw 0x0A 0x0C, []) ∧
  decode [0x03, 0x0E, 0x10] = .ok (.swp 0x0E 0x10, []) ∧
  decode [0x04, 0x12] = .ok (.psh 0x12, []) ∧
  decode [0x05, 0x01, 0x12] = .ok (.pshi 0x0112, []) ∧
  decode [0x06, 0x14] = .ok (.pop 0x14, []) ∧
  decode [0x07, 0x00, 0x20] = .ok (.jali 0x0020, []) ∧
  decode [0x08, 0x02] = .ok (.jal 0x02, []) ∧
  decode [0x09] = .ok (.ret, []) ∧
  decode [0x0A, 0x06, 0x08] = .ok (.add 0x06 0x08, []) ∧
  decode [0x0B, 0x04, 0x18] = .ok (.sub 0x04 0x18, []) ∧
  decode [0x0C, 0x08, 0x08] = .ok (.mult 0x08 0x08, []) ∧
  decode [0x0D, 0x14, 0x06] = .ok (.div 0x14 0x06, []) ∧
  decode [0x0E, 0x0A, 0x16] = .ok (.mod 0x0A 0x16, []) ∧
  decode [0x0F, 0x06, 0x08] = .ok (.and 0x06 0x08, []) ∧
  decode [0x10, 0x0C, 0x0C] = .ok (.or 0x0C 0x0C, []) ∧
  decode [0x11, 0x10, 0x0E] = .ok (.xor 0x10 0x0E, []) ∧
  decode [0x12, 0x06, 0x08] = .ok (.lshft 0x06 0x08, []) ∧
  decode [0x13, 0x08, 0x06] = .ok (.rshft 0x08 0x06, []) ∧
  decode [0x14, 0x04] = .ok (.not 0x04, []) ∧
  decode [0x15, 0x02] = .ok (.jr 0x02, []) ∧
  decode [0x16, 0x0F, 0xFF] = .ok (.ji 0x0FFF, []) ∧
  decode [0x17, 0x00, 0x16] = .ok (.beq 0x0016, []) ∧
  decode [0x18, 0x00, 0x14] = .ok (.bne 0x0014, []) ∧
  decode [0x19, 0x00, 0x00] = .ok (.blt 0x0000, []) ∧
  decode [0x1A, 0xFF, 0xFF] = .ok (.ble 0xFFFF, []) ∧
  decode [0x1B, 0x01, 0x00] = .ok (.bgt 0x0100, []) ∧
  decode [0x1C, 0x80, 0x00] = .ok (.bge 0x8000, []) ∧
  decode [0x1D] = .ok (.hlt, [])

/-- The valid register indices are the 13 even offsets 0 to 24, and the index of each named register is the one R21's table
gives it, 2 times its position (spec/10_state.md R21, R25). -/
def Obligations.RegisterIndicesAreTheEvenOffsetsUpTo24 : Prop :=
  (∀ n : RegIndex, validIndex n = true ↔ n.toNat % 2 = 0 ∧ n.toNat ≤ 24) ∧
  (∀ (n : RegIndex) (r : Reg), Reg.ofIndex n = some r ↔ n = r.index) ∧
  Reg.index .ip = 0x00 ∧ Reg.index .lr = 0x02 ∧ Reg.index .ac = 0x04 ∧ Reg.index .r1 = 0x06 ∧ Reg.index .r2 = 0x08 ∧
  Reg.index .r3 = 0x0A ∧ Reg.index .r4 = 0x0C ∧ Reg.index .r5 = 0x0E ∧ Reg.index .r6 = 0x10 ∧ Reg.index .r7 = 0x12 ∧
  Reg.index .r8 = 0x14 ∧ Reg.index .sp = 0x16 ∧ Reg.index .fp = 0x18

/-! ### Step and run -/

/-- R89: the bytes 0x00 and 0x1E to 0xFF are the illegal opcodes, and a step that fetches one raises
`UnknownInstruction(byte)` with `ip` past that byte and nothing else changed. -/
def Obligations.IllegalOpcodesRaiseUnknownInstruction : Prop :=
  (∀ op : Byte, opcodeShape op = none ↔ op.toNat = 0 ∨ 0x1E ≤ op.toNat) ∧
  (∀ s : State, s.rs = .running → (s.reg .ip).toNat < s.cfg.progSize →
    ((s.prog.get (s.reg .ip).toNat).toNat = 0 ∨ 0x1E ≤ (s.prog.get (s.reg .ip).toNat).toNat) →
    step s = .next ((s.setReg .ip (s.reg .ip + 1)).setRs
      (.faulted (.unknownInstruction (s.prog.get (s.reg .ip).toNat)))))

/-- A step of a running machine whose bytes at `ip` decode performs the decoded instruction, with `ip` already past its
bytes (spec/41_fetch_step_run.md R147, R149). -/
def Obligations.StepPerformsTheDecodedInstruction : Prop :=
  ∀ (s : State) (i : Instr) (rest : List Byte),
    s.rs = .running → s.cfg.progSize ≤ 65536 → decode s.window = .ok (i, rest) → s.fetchFits i.format = true →
      step s = exec i (s.setReg .ip (s.reg .ip + BitVec.ofNat 16 i.format.length))

/-- A step whose opcode or operand fetch leaves `PROG` raises `AddressOutOfBounds(PROG)`, naming an address outside it
(R140, R141, R242 (a)). -/
def Obligations.FetchOutsideProgFaults : Prop :=
  ∀ (s : State) (sh : Shape), s.rs = .running →
    ((s.reg .ip).toNat < s.cfg.progSize → opcodeShape (s.prog.get (s.reg .ip).toNat) = some sh) →
    s.fetchFits sh.format = false →
      ∃ t a, step s = .next t ∧ t.rs = .faulted (.addressOutOfBounds .prog a) ∧ s.cfg.progSize ≤ a

/-- A step of a running machine always gives a next state: running, halted or faulted. R147 gives "a new state" or "a
fault"; that a fault too is answered as a next state is the model's form, and the whole conclusion turns on it (log
entry 3). -/
def Obligations.RunningMachineAlwaysAnswersANextState : Prop :=
  ∀ s : State, s.rs = .running → ∃ t, step s = .next t

/-- Nothing is done from `Halted` or `Faulted`: no step, and a run leaves the state as it is (R31). That a halted machine
is refused and a faulted one answers its cause is the model's choice (log entry 4), and so is that a run asked of a stopped
machine is R148's loop with no turn, and not refused (log entry 15). -/
def Obligations.StoppedMachineTakesNoStep : Prop :=
  ∀ s : State, s.rs ≠ .running → (∀ t, step s ≠ .next t) ∧ (∀ fuel, run fuel s = s)

/-- A step reaches `Halted` only by fetching the `HLT` opcode, and then changes only `ip` and the run state (R151, R230). -/
def Obligations.OnlyHltEndsARunSuccessfully : Prop :=
  ∀ s t : State, step s = .next t → t.rs = .halted →
    s.prog.get (s.reg .ip).toNat = 0x1D ∧ t = (s.setReg .ip (s.reg .ip + 1)).setRs .halted

/-- A run of a running machine takes a step and runs on from there (R148), and once it has stopped, more fuel changes
nothing (R31). The fuel is the model's (log entry 13). -/
def Obligations.RunTakesItsStepsAndStopsForGood : Prop :=
  (∀ (s t : State) (k : Nat), s.rs = .running → step s = .next t → run (k + 1) s = run k t) ∧
  (∀ (s : State) (k m : Nat), (run k s).rs ≠ .running → k ≤ m → run m s = run k s)

/-- Taking a fault, whether the instruction raises it or the fetch of the opcode or of an operand, writes the run state and
nothing else, and nothing runs after it (R240, R254). That the faulted state is a next state and that it keeps every change
made before the raise is the model's reading (log entry 3; R255 calls it the spec's own choice). -/
def Obligations.TakingAFaultWritesOnlyTheRunState : Prop :=
  (∀ (m : Micro Unit) (s t : State) (c : Fault), m s = .error c t → perform m s = .next { t with rs := .faulted c }) ∧
  (∀ (s u : State) (c : Fault), s.rs = .running → fetchInstr s = .error c u →
    step s = .next { u with rs := .faulted c }) ∧
  (∀ (t u : State) (c : Fault), step { t with rs := .faulted c } ≠ .next u)

/-! ### Reset and load -/

/-- The state after reset, for every configuration within the constraints of R6: registers, run state and memory as R39's
table has them. Nothing is said of the flags, which R40 leaves unspecified (log entry 1). That the state carries its
configuration and that `State.reset` is the one of `CFG0` is the model's choice (log entry 2). -/
def Obligations.ResetValues : Prop :=
  (∀ c : Config, c.ok = true →
    (∀ r, r ≠ .sp → (State.construct c).reg r = 0) ∧
    ((State.construct c).reg .sp).toNat = c.stackSize - 2 ∧
    (State.construct c).rs = .running ∧
    (∀ g a, ((State.construct c).seg g).get a = 0) ∧
    (State.construct c).cfg = c) ∧
  State.reset = State.construct Config.cfg0 ∧ (State.reset.reg .sp).toNat = 0x03FE

/-- R273: a load of a CPU that nothing has been loaded into fails with `ProgramTooLarge` exactly when `byte_count` plus the
number of functions meets or exceeds the program segment's capacity, and then nothing is written. A load that passes the
check succeeds with the true byte count and is refused with a false one. The phase and the refusal are the model's (log
entry 11). -/
def Obligations.LoadFailsExactlyWhenTooLarge : Prop :=
  ∀ (functions : List (String × List Byte)) (byteCount : Nat) (h : Session), h.phase = .constructed →
    (loadProgram functions byteCount h = .programTooLarge { h with phase := .loadFailed } ↔
      h.core.cfg.progSize ≤ byteCount + functions.length) ∧
    (∀ h', loadProgram functions byteCount h = .programTooLarge h' → h' = { h with phase := .loadFailed }) ∧
    (byteCount + functions.length < h.core.cfg.progSize →
      (byteCount = trueByteCount functions → ∃ h', loadProgram functions byteCount h = .loaded h') ∧
      (byteCount ≠ trueByteCount functions → loadProgram functions byteCount h = .refused .falseByteCount))

/-- R274, R275: a load with the true byte count into an unwritten `PROG` puts each function's bytes at its offset, leaves
one zero byte after each and zeros above, labels each function with its offset, and touches nothing but `PROG` and the
label table. The phase is the model's (log entry 11). -/
def Obligations.LoadPlacesEveryFunctionAtItsOffset : Prop :=
  ∀ (functions : List (String × List Byte)) (h : Session), h.phase = .constructed →
    h.core.prog = [] → trueByteCount functions + functions.length < h.core.cfg.progSize →
      ∃ m labels, loadProgram functions (trueByteCount functions) h =
          .loaded { core := h.core.setSeg .prog m, labels := labels, phase := .loaded } ∧
        labels.length = functions.length ∧
        (∀ k name bytes, functions[k]? = some (name, bytes) →
          labels[k]? = some (name, functionOffset functions k) ∧
          (∀ j b, bytes[j]? = some b → m.get (functionOffset functions k + j) = b) ∧
          m.get (functionOffset functions k + bytes.length) = 0) ∧
        (∀ a, functionOffset functions functions.length ≤ a → m.get a = 0)

/-! ### Memory -/

/-- R52 to R55: a segment access is made exactly when every byte of it is inside the segment; a word is big-endian; an
access outside names the first address that failed and changes nothing. -/
def Obligations.SegmentAccessesCheckEveryByteFirst : Prop :=
  ∀ (s : State) (g : Seg) (a : Nat),
    (a < segCap s.cfg g → memReadByte g a s = .ok ((s.seg g).get a) s ∧
      ∀ b, memWriteByte g a b s = .ok () (s.setSeg g ((s.seg g).set a b))) ∧
    (segCap s.cfg g ≤ a → memReadByte g a s = .error (.addressOutOfBounds g a) s ∧
      (∀ b, memWriteByte g a b s = .error (.addressOutOfBounds g a) s) ∧
      memReadWord g a s = .error (.addressOutOfBounds g a) s ∧
      ∀ w, memWriteWord g a w s = .error (.addressOutOfBounds g a) s) ∧
    (a + 1 < segCap s.cfg g →
      (∃ w, memReadWord g a s = .ok w s ∧
        w.toNat = ((s.seg g).get a).toNat * 256 + ((s.seg g).get (a + 1)).toNat) ∧
      ∀ w, ∃ hi lo : Byte, w.toNat = hi.toNat * 256 + lo.toNat ∧
        memWriteWord g a w s = .ok () (s.setSeg g (((s.seg g).set a hi).set (a + 1) lo))) ∧
    (a + 1 = segCap s.cfg g → memReadWord g a s = .error (.addressOutOfBounds g (a + 1)) s ∧
      ∀ w, memWriteWord g a w s = .error (.addressOutOfBounds g (a + 1)) s)

/-- R56: after any integer is written as a word, it reads back truncated to 16 bits, its bytes are the high and the low
one, and no other byte of the segment, no other segment and nothing else has changed. -/
def Obligations.WordWriteReadsBack : Prop :=
  ∀ (s : State) (g : Seg) (a : Nat) (v : Int), a + 1 < segCap s.cfg g →
    ∃ t, memWriteWord g a (u16 v) s = .ok () t ∧
      memReadWord g a t = .ok (u16 v) t ∧ ((u16 v).toNat : Int) = v % 65536 ∧
      (∃ hi, memReadByte g a t = .ok hi t ∧ hi.toNat = (u16 v).toNat / 256) ∧
      (∃ lo, memReadByte g (a + 1) t = .ok lo t ∧ lo.toNat = (u16 v).toNat % 256) ∧
      (∀ b, b ≠ a → b ≠ a + 1 → (t.seg g).get b = (s.seg g).get b) ∧
      (∀ h, h ≠ g → t.seg h = s.seg h) ∧
      t.cfg = s.cfg ∧ t.regs = s.regs ∧ t.flags = s.flags ∧ t.rs = s.rs

/-- Every step keeps the invariant: the configuration legal, every segment in canonical form and within its capacity
(spec/20_memory.md R50, R51; the canonical form is the model's, log entry 5). -/
def Obligations.EveryStepKeepsTheInvariant : Prop :=
  ∀ s t : State, s.inv = true → step s = .next t → t.inv = true

/-- The invariant holds after reset, and after construction with any configuration within the constraints, as does that of
`sp` (R39 gives the values it is read off). The canonical form in it is the model's (log entry 5), and so is `CFG0` at
`State.reset` (log entry 2). -/
def Obligations.InvariantHoldsAtReset : Prop :=
  State.reset.inv = true ∧ State.reset.spOk = true ∧
  ∀ c : Config, c.ok = true → (State.construct c).inv = true ∧ (State.construct c).spOk = true

/-- No step writes the program segment, the I/O segment or the display segment (spec/10_state.md R35, R36;
spec/20_memory.md R65), nor the configuration, which the model carries in its state (log entry 2) because a segment's
capacity is fixed (spec/20_memory.md R50). -/
def Obligations.NoStepWritesProgIoDispOrTheConfiguration : Prop :=
  ∀ s t : State, step s = .next t → t.prog = s.prog ∧ t.io = s.io ∧ t.disp = s.disp ∧ t.cfg = s.cfg

/-- `GP` is written by `SW` alone, `STACK` by `PSH`, `PSHI` and `SWP` alone (spec/10_state.md R35). -/
def Obligations.SegmentsAreWrittenByTheirInstructionsAlone : Prop :=
  ∀ (i : Instr) (s t : State), exec i s = .next t →
    ((∀ a b, i ≠ .sw a b) → t.gp = s.gp) ∧
    ((∀ a, i ≠ .psh a) → (∀ w, i ≠ .pshi w) → (∀ a b, i ≠ .swp a b) → t.stack = s.stack)

/-! ### Registers and flags, over all instructions -/

/-- A register is written only through a destination operand or by the implicit writes of R23: `ip` by a jump or branch,
`sp` by a push or pop, `ac` by the eleven ALU instructions. -/
def Obligations.RegistersAreWrittenOnlyAsTheSpecLists : Prop :=
  ∀ (i : Instr) (s t : State) (r : Reg), exec i s = .next t →
    (∀ n ∈ i.destinations, Reg.ofIndex n ≠ some r) →
    (r = .ac → i.callsAlu = false) →
    (r = .ip → (∀ a, i ≠ .jr a) ∧ (∀ w, i ≠ .ji w) ∧ (∀ w, i ≠ .beq w) ∧ (∀ w, i ≠ .bne w) ∧ (∀ w, i ≠ .blt w) ∧
      (∀ w, i ≠ .ble w) ∧ (∀ w, i ≠ .bgt w) ∧ (∀ w, i ≠ .bge w)) →
    (r = .sp → (∀ a, i ≠ .psh a) ∧ (∀ w, i ≠ .pshi w) ∧ (∀ a, i ≠ .pop a) ∧ (∀ a b, i ≠ .swp a b)) →
      t.reg r = s.reg r

/-- No instruction but the eleven that call the ALU writes a flag (spec/10_state.md R29). -/
def Obligations.FlagsAreWrittenByAluInstructionsAlone : Prop :=
  ∀ (i : Instr) (s t : State), i.callsAlu = false → exec i s = .next t → t.flags = s.flags

/-- An ALU instruction reads no flag and overwrites all three: from two states that differ in the flags only, it reaches
the same state (R110, R127), unless a bad register index stops it before the ALU is called. -/
def Obligations.AluInstructionsOverwriteAllFlagsAndReadNone : Prop :=
  ∀ (i : Instr) (s : State) (f : Flags), i.callsAlu = true → i.wellFormed = true →
    exec i (s.setFlags f) = exec i s

/-- R30: after any `compute` that returns, exactly one of "zero", "negative", "positive" describes the raw result, `Z`
implies not `N`, and a zero result never sets `V`. -/
def Obligations.ZeroExcludesNegativeAndOverflow : Prop :=
  ∀ (op : AluOp) (a b : Word) (s t : State) (raw : Int), compute op a b s = .ok raw t →
    (t.flags.z = true ↔ raw = 0) ∧ (t.flags.n = true ↔ raw < 0) ∧ (t.flags.v = true ↔ 65535 < raw ∨ raw < -65535) ∧
    (t.flags.z = true → t.flags.n = false ∧ t.flags.v = false) ∧
    (t.flags.z = false → t.flags.n = false → 0 < raw)

/-- R112 and R116, R117, R121, R122: `compute` raises exactly on a zero divisor and on a negative shift count, and then
the flags hold `Z` true, `N` and `V` false and nothing else has changed. -/
def Obligations.ComputeRaisesExactlyOnZeroDivisorAndNegativeCount : Prop :=
  ∀ (op : AluOp) (a b : Word) (s : State),
    ((∃ raw t, compute op a b s = .ok raw t) ↔
      ¬ (op = .div ∧ b = 0) ∧ ¬ (op = .rem ∧ b = 0) ∧ ¬ ((op = .lshift ∨ op = .rshift) ∧ 0x8000 ≤ b.toNat)) ∧
    (b = 0 → compute .div a b s = .error .divideByZero (s.setFlags { z := true, n := false, v := false })) ∧
    (b = 0 → compute .rem a b s = .error .moduloByZero (s.setFlags { z := true, n := false, v := false })) ∧
    (0x8000 ≤ b.toNat →
      compute .lshift a b s = .error .shiftCountNegative (s.setFlags { z := true, n := false, v := false }) ∧
      compute .rshift a b s = .error .shiftCountNegative (s.setFlags { z := true, n := false, v := false }))

/-! ### Load and store -/

/-- R160: `LW rd,rs` puts the big-endian word of `GP` at the address in `rs` into `rd`. -/
def Obligations.LwLoadsTheWordAtTheAddressInRs : Prop :=
  ∀ (s : State) (rd rs : RegIndex) (d a : Reg), Reg.ofIndex rd = some d → Reg.ofIndex rs = some a →
    (s.reg a).toNat + 1 < s.cfg.gpSize →
      ∃ w : Word, w.toNat = (s.gp.get (s.reg a).toNat).toNat * 256 + (s.gp.get ((s.reg a).toNat + 1)).toNat ∧
        exec (.lw rd rs) s = .next (s.setReg d w)

/-- R161: `SW rs,rd` stores the value of `rs` big-endian at the address in `rd`; every other byte of `GP` and everything
else is unchanged. -/
def Obligations.SwStoresTheWordAtTheAddressInRd : Prop :=
  ∀ (s : State) (rs rd : RegIndex) (v a : Reg), Reg.ofIndex rs = some v → Reg.ofIndex rd = some a →
    (s.reg a).toNat + 1 < s.cfg.gpSize →
      ∃ m : Memory, exec (.sw rs rd) s = .next (s.setSeg .gp m) ∧
        (m.get (s.reg a).toNat).toNat = (s.reg v).toNat / 256 ∧
        (m.get ((s.reg a).toNat + 1)).toNat = (s.reg v).toNat % 256 ∧
        ∀ x, x ≠ (s.reg a).toNat → x ≠ (s.reg a).toNat + 1 → m.get x = s.gp.get x

/-- R160, R161, R253: which fault `LW` and `SW` raise, the first one their pseudocode reaches. What the registers hold at a
fault is not stated here or below, as R255 recommends. -/
def Obligations.LwAndSwFaults : Prop :=
  ∀ (s : State) (n k : RegIndex),
    (Reg.ofIndex k = none → ∃ t, exec (.lw n k) s = .next t ∧ t.rs = .faulted (.registerIndexNotFound k)) ∧
    (∀ a, Reg.ofIndex k = some a → s.cfg.gpSize ≤ (s.reg a).toNat + 1 →
      ∃ t x, exec (.lw n k) s = .next t ∧ t.rs = .faulted (.addressOutOfBounds .gp x) ∧ s.cfg.gpSize ≤ x) ∧
    (∀ a, Reg.ofIndex k = some a → (s.reg a).toNat + 1 < s.cfg.gpSize → Reg.ofIndex n = none →
      ∃ t, exec (.lw n k) s = .next t ∧ t.rs = .faulted (.registerIndexNotFound n)) ∧
    (Reg.ofIndex n = none → ∃ t, exec (.sw n k) s = .next t ∧ t.rs = .faulted (.registerIndexNotFound n)) ∧
    (∀ v, Reg.ofIndex n = some v → Reg.ofIndex k = none →
      ∃ t, exec (.sw n k) s = .next t ∧ t.rs = .faulted (.registerIndexNotFound k)) ∧
    (∀ v a, Reg.ofIndex n = some v → Reg.ofIndex k = some a → s.cfg.gpSize ≤ (s.reg a).toNat + 1 →
      ∃ t x, exec (.sw n k) s = .next t ∧ t.rs = .faulted (.addressOutOfBounds .gp x) ∧ s.cfg.gpSize ≤ x ∧
        t.gp = s.gp)

/-! ### Move and stack -/

/-- R144: `push` writes the word at `sp` and then moves `sp` down by 2 unless it is 0, wrapping 1 to 65535; when the word
is not inside the stack segment it raises and `sp` has not moved. -/
def Obligations.PushWritesThenMovesSp : Prop :=
  ∀ (s : State) (v : Word),
    ((s.reg .sp).toNat + 1 < s.cfg.stackSize →
      push v s = .ok () ((s.setSeg .stack (s.stack.setWord (s.reg .sp).toNat v)).setReg .sp
        (if s.reg .sp = 0 then 0 else s.reg .sp - 2))) ∧
    (s.cfg.stackSize ≤ (s.reg .sp).toNat + 1 → ∃ a, push v s = .error (.addressOutOfBounds .stack a) s)

/-- R145: `pop` moves `sp` up by 2 if it is below `SP_MAX` and then reads the word there, leaving the word in place; when
it is not inside the stack segment it raises and `sp` keeps the moved value. -/
def Obligations.PopMovesSpThenReads : Prop :=
  ∀ (s : State) (q : Word), q = (if (s.reg .sp).toNat < s.cfg.stackSize - 2 then s.reg .sp + 2 else s.reg .sp) →
    (q.toNat + 1 < s.cfg.stackSize →
      ∃ w : Word, pop s = .ok w (s.setReg .sp q) ∧
        w.toNat = (s.stack.get q.toNat).toNat * 256 + (s.stack.get (q.toNat + 1)).toNat) ∧
    (s.cfg.stackSize ≤ q.toNat + 1 → ∃ a, pop s = .error (.addressOutOfBounds .stack a) (s.setReg .sp q))

/-- R146: `push(v)` followed by `pop()` gives `v` back and restores `sp` exactly when `2 <= sp <= SP_MAX`. The rule's
"exactly" needs `SP_MAX >= 2`: with a stack of one word the pop at `sp` = 0 reads the word just pushed. -/
def Obligations.PopAfterPushGivesTheValueBackExactlyInRange : Prop :=
  ∀ (s : State) (v : Word), s.cfg.ok = true → 2 ≤ s.cfg.spMax →
    ((∃ t u, push v s = .ok () t ∧ pop t = .ok v u ∧ u.reg .sp = s.reg .sp) ↔
      2 ≤ (s.reg .sp).toNat ∧ (s.reg .sp).toNat ≤ s.cfg.spMax)

/-- R171, R172: `PSH rs` and `PSHI imm16` push the register's value and the immediate; `PSH sp` pushes the value before
the decrement. -/
def Obligations.PshAndPshiPushTheirOperand : Prop :=
  ∀ s : State, (s.reg .sp).toNat + 1 < s.cfg.stackSize →
    (∀ (rs : RegIndex) (r : Reg), Reg.ofIndex rs = some r →
      exec (.psh rs) s = .next ((s.setSeg .stack (s.stack.setWord (s.reg .sp).toNat (s.reg r))).setReg .sp
        (if s.reg .sp = 0 then 0 else s.reg .sp - 2))) ∧
    (∀ w : Word,
      exec (.pshi w) s = .next ((s.setSeg .stack (s.stack.setWord (s.reg .sp).toNat w)).setReg .sp
        (if s.reg .sp = 0 then 0 else s.reg .sp - 2)))

/-- R173: `POP rd` moves `sp`, then puts the word there into `rd`, which may be `sp` itself. -/
def Obligations.PopLoadsTheWordAtTheMovedSp : Prop :=
  ∀ (s : State) (rd : RegIndex) (d : Reg) (q : Word), Reg.ofIndex rd = some d →
    q = (if (s.reg .sp).toNat < s.cfg.stackSize - 2 then s.reg .sp + 2 else s.reg .sp) →
    q.toNat + 1 < s.cfg.stackSize →
      ∃ w : Word, w.toNat = (s.stack.get q.toNat).toNat * 256 + (s.stack.get (q.toNat + 1)).toNat ∧
        exec (.pop rd) s = .next ((s.setReg .sp q).setReg d w)

/-- R171 to R173, R253: which fault `PSH`, `PSHI` and `POP` raise. -/
def Obligations.StackInstructionFaults : Prop :=
  ∀ (s : State) (n : RegIndex),
    (Reg.ofIndex n = none → ∃ t, exec (.psh n) s = .next t ∧ t.rs = .faulted (.registerIndexNotFound n)) ∧
    (s.cfg.stackSize ≤ (s.reg .sp).toNat + 1 →
      (∀ r, Reg.ofIndex n = some r →
        ∃ t a, exec (.psh n) s = .next t ∧ t.rs = .faulted (.addressOutOfBounds .stack a) ∧ s.cfg.stackSize ≤ a) ∧
      ∀ w, ∃ t a, exec (.pshi w) s = .next t ∧ t.rs = .faulted (.addressOutOfBounds .stack a) ∧ s.cfg.stackSize ≤ a) ∧
    (∀ q : Word, q = (if (s.reg .sp).toNat < s.cfg.stackSize - 2 then s.reg .sp + 2 else s.reg .sp) →
      (s.cfg.stackSize ≤ q.toNat + 1 →
        ∃ t a, exec (.pop n) s = .next t ∧ t.rs = .faulted (.addressOutOfBounds .stack a) ∧ s.cfg.stackSize ≤ a) ∧
      (q.toNat + 1 < s.cfg.stackSize → Reg.ofIndex n = none →
        ∃ t, exec (.pop n) s = .next t ∧ t.rs = .faulted (.registerIndexNotFound n)))

/-- R170: with `4 <= sp <= SP_MAX` and neither operand `sp`, `SWP` exchanges the two registers and restores `sp`; the two
stack words at `sp` and below it are overwritten. An operand may be `ip`, and the two may be the same register. -/
def Obligations.SwpExchangesTheRegisters : Prop :=
  ∀ (s : State) (ra rb : RegIndex) (a b : Reg), Reg.ofIndex ra = some a → Reg.ofIndex rb = some b →
    a ≠ .sp → b ≠ .sp → 4 ≤ (s.reg .sp).toNat → (s.reg .sp).toNat ≤ s.cfg.spMax →
      exec (.swp ra rb) s = .next (((s.setSeg .stack
        ((s.stack.setWord (s.reg .sp).toNat (s.reg a)).setWord ((s.reg .sp).toNat - 2) (s.reg b))).setReg a
          (s.reg b)).setReg b (s.reg a))

/-- R170, the pseudocode applied literally where an operand names `sp`. `SWP sp,rb`: `sp` receives the old `x[rb]` and
the second pop runs from there. `SWP ra,sp`: the second read of `sp` sees it moved by the first push, which is the model's
reading of the rule against D22 (log entry 9). `SWP sp,sp` leaves `sp` as it was. -/
def Obligations.SwpWithAnOperandNamingSp : Prop :=
  ∀ (s : State) (n sp : RegIndex) (r : Reg), Reg.ofIndex sp = some .sp → Reg.ofIndex n = some r → r ≠ .sp →
    4 ≤ (s.reg .sp).toNat → (s.reg .sp).toNat ≤ s.cfg.spMax →
      exec (.swp sp n) s = exec (.pop n) ((s.setSeg .stack
        ((s.stack.setWord (s.reg .sp).toNat (s.reg .sp)).setWord ((s.reg .sp).toNat - 2) (s.reg r))).setReg .sp
          (s.reg r)) ∧
      exec (.swp n sp) s = .next (((s.setSeg .stack
        ((s.stack.setWord (s.reg .sp).toNat (s.reg r)).setWord ((s.reg .sp).toNat - 2) (s.reg .sp - 2))).setReg r
          (s.reg .sp - 2)).setReg .sp (s.reg r)) ∧
      exec (.swp sp sp) s = .next (s.setSeg .stack
        ((s.stack.setWord (s.reg .sp).toNat (s.reg .sp)).setWord ((s.reg .sp).toNat - 2) (s.reg .sp - 2)))

/-- R170, the corner cases at the lower clamp: at `sp` = 2 `x[ra]` keeps its value and `x[rb]` gets the word at 4; at
`sp` = 0 they get the words at 2 and 4; `sp` ends at 4. -/
def Obligations.SwpAtTheLowerClampDoesNotExchange : Prop :=
  ∀ (s : State) (ra rb : RegIndex) (a b : Reg), Reg.ofIndex ra = some a → Reg.ofIndex rb = some b →
    a ≠ .sp → b ≠ .sp → 4 ≤ s.cfg.spMax →
      (s.reg .sp = 2 →
        exec (.swp ra rb) s = .next (((s.setSeg .stack ((s.stack.setWord 2 (s.reg a)).setWord 0 (s.reg b))).setReg b
          (s.stack.getWord 4)).setReg .sp 4)) ∧
      (s.reg .sp = 0 →
        exec (.swp ra rb) s = .next ((((s.setSeg .stack ((s.stack.setWord 0 (s.reg a)).setWord 0 (s.reg b))).setReg a
          (s.stack.getWord 2)).setReg b (s.stack.getWord 4)).setReg .sp 4))

/-- R170, R253: which fault `SWP` raises: a bad first index; a first push outside the stack (`sp` above `SP_MAX`); a bad
second index, once the first push is done; `AddressOutOfBounds(STACK)` at `sp` = 1 and `sp` = 3. -/
def Obligations.SwpFaults : Prop :=
  ∀ (s : State) (ra rb : RegIndex),
    (Reg.ofIndex ra = none → ∃ t, exec (.swp ra rb) s = .next t ∧ t.rs = .faulted (.registerIndexNotFound ra)) ∧
    (∀ a, Reg.ofIndex ra = some a → s.cfg.stackSize ≤ (s.reg .sp).toNat + 1 →
      ∃ t x, exec (.swp ra rb) s = .next t ∧ t.rs = .faulted (.addressOutOfBounds .stack x) ∧ s.cfg.stackSize ≤ x) ∧
    (∀ a, Reg.ofIndex ra = some a → Reg.ofIndex rb = none → (s.reg .sp).toNat + 1 < s.cfg.stackSize →
      ∃ t, exec (.swp ra rb) s = .next t ∧ t.rs = .faulted (.registerIndexNotFound rb)) ∧
    (∀ a b, Reg.ofIndex ra = some a → Reg.ofIndex rb = some b → s.cfg.ok = true →
      (s.reg .sp = 1 ∨ s.reg .sp = 3) →
      ∃ t x, exec (.swp ra rb) s = .next t ∧ t.rs = .faulted (.addressOutOfBounds .stack x))

/-- R174: what `PSHI v; POP rd`, the expansion of `MOV rd,v`, does for each entry value of `sp`, with `rd` not `sp`; and
`PSH rs; POP rd` copies `x[rs]` to `x[rd]` when `2 <= sp <= SP_MAX`. -/
def Obligations.MovExpansionAndRegisterCopy : Prop :=
  ∀ (s : State) (rd : RegIndex) (d : Reg) (v : Word), Reg.ofIndex rd = some d → d ≠ .sp → s.cfg.ok = true →
    movExpansion rd v = [.pshi v, .pop rd] ∧
    (2 ≤ (s.reg .sp).toNat → (s.reg .sp).toNat ≤ s.cfg.spMax →
      ∃ t, exec (.pshi v) s = .next t ∧
        exec (.pop rd) t = .next ((s.setSeg .stack (s.stack.setWord (s.reg .sp).toNat v)).setReg d v)) ∧
    (s.reg .sp = 0 → 2 ≤ s.cfg.spMax →
      ∃ t, exec (.pshi v) s = .next t ∧
        exec (.pop rd) t = .next (((s.setSeg .stack (s.stack.setWord 0 v)).setReg .sp 2).setReg d (s.stack.getWord 2))) ∧
    (s.reg .sp = 1 → 1 ≤ s.cfg.spMax →
      ∃ t, exec (.pshi v) s = .next t ∧ t = (s.setSeg .stack (s.stack.setWord 1 v)).setReg .sp 65535 ∧
        ∃ u a, exec (.pop rd) t = .next u ∧ u.rs = .faulted (.addressOutOfBounds .stack a)) ∧
    (s.cfg.spMax < (s.reg .sp).toNat →
      ∃ t a, exec (.pshi v) s = .next t ∧ t.rs = .faulted (.addressOutOfBounds .stack a)) ∧
    (∀ (rs : RegIndex) (r : Reg), Reg.ofIndex rs = some r → 2 ≤ (s.reg .sp).toNat → (s.reg .sp).toNat ≤ s.cfg.spMax →
      ∃ t, exec (.psh rs) s = .next t ∧
        exec (.pop rd) t = .next ((s.setSeg .stack (s.stack.setWord (s.reg .sp).toNat (s.reg r))).setReg d (s.reg r)))

/-- R146: `sp` stays even and within `[0, SP_MAX]` under every instruction that does not write it through an operand. -/
def Obligations.SpStaysEvenAndInRange : Prop :=
  ∀ (i : Instr) (s t : State), s.cfg.ok = true → s.spOk = true →
    (∀ n ∈ i.destinations, Reg.ofIndex n ≠ some .sp) → exec i s = .next t → t.spOk = true

/-! ### Call and return -/

/-- R180 to R182: `JALI`, `JAL` and `RET` change nothing once their bytes are fetched, for every operand; `JAL` does not
check its operand byte. -/
def Obligations.CallAndReturnOpcodesChangeNothing : Prop :=
  ∀ s : State, (∀ w : Word, exec (.jali w) s = .next s) ∧ (∀ n : RegIndex, exec (.jal n) s = .next s) ∧
    exec .ret s = .next s

/-! ### Arithmetic -/

/-- R113, R190: `ADD` leaves the wrapping 16-bit sum in `ac`; the flags classify the exact signed sum, and `V` is set for
`0x8000 + 0x8000` only. -/
def Obligations.AddResultAndFlags : Prop :=
  ∀ (s : State) (ra rb : RegIndex) (a b : Reg), Reg.ofIndex ra = some a → Reg.ofIndex rb = some b →
    ∃ f : Flags, exec (.add ra rb) s = .next ((s.setFlags f).setReg .ac (s.reg a + s.reg b)) ∧
      (f.z = true ↔ (s.reg a).toInt + (s.reg b).toInt = 0) ∧
      (f.n = true ↔ (s.reg a).toInt + (s.reg b).toInt < 0) ∧
      (f.v = true ↔ s.reg a = 0x8000 ∧ s.reg b = 0x8000)

/-- R114, R191: `SUB` leaves the wrapping 16-bit difference in `ac`; `Z` iff the operands are equal, `N` iff the first is
less as a signed integer, exactly; `V` never. -/
def Obligations.SubResultAndFlags : Prop :=
  ∀ (s : State) (ra rb : RegIndex) (a b : Reg), Reg.ofIndex ra = some a → Reg.ofIndex rb = some b →
    ∃ f : Flags, exec (.sub ra rb) s = .next ((s.setFlags f).setReg .ac (s.reg a - s.reg b)) ∧
      (f.z = true ↔ s.reg a = s.reg b) ∧
      (f.n = true ↔ (s.reg a).toInt < (s.reg b).toInt) ∧
      f.v = false

/-- R115, R192: `MULT` leaves the low 16 bits of the exact signed product in `ac`; `Z` iff an operand is 0, `N` iff the
signs differ and neither is zero, `V` iff the product's magnitude exceeds 65535. -/
def Obligations.MultResultAndFlags : Prop :=
  ∀ (s : State) (ra rb : RegIndex) (a b : Reg), Reg.ofIndex ra = some a → Reg.ofIndex rb = some b →
    ∃ f : Flags, exec (.mult ra rb) s = .next ((s.setFlags f).setReg .ac (s.reg a * s.reg b)) ∧
      (f.z = true ↔ s.reg a = 0 ∨ s.reg b = 0) ∧
      (f.n = true ↔ (s.reg a).toInt < 0 ∧ 0 < (s.reg b).toInt ∨ 0 < (s.reg a).toInt ∧ (s.reg b).toInt < 0) ∧
      (f.v = true ↔ 65535 < |(s.reg a).toInt * (s.reg b).toInt|)

/-- R116, R193: with a non-zero second operand `DIV` leaves the quotient rounded toward minus infinity in `ac`, truncated
to 16 bits; `V` never. -/
def Obligations.DivResultAndFlags : Prop :=
  ∀ (s : State) (ra rb : RegIndex) (a b : Reg), Reg.ofIndex ra = some a → Reg.ofIndex rb = some b → s.reg b ≠ 0 →
    ∃ (f : Flags) (q : Int), q = ⌊((s.reg a).toInt : ℚ) / ((s.reg b).toInt : ℚ)⌋ ∧ -32768 ≤ q ∧ q ≤ 32768 ∧
      exec (.div ra rb) s = .next ((s.setFlags f).setReg .ac (BitVec.ofInt 16 q)) ∧
      (f.z = true ↔ q = 0) ∧ (f.n = true ↔ q < 0) ∧ f.v = false ∧
      (f.n = true ↔ (s.reg a).toInt < 0 ∧ 0 < (s.reg b).toInt ∨ 0 < (s.reg a).toInt ∧ (s.reg b).toInt < 0)

/-- R117, R194: with a non-zero second operand `MOD` leaves in `ac` the remainder that goes with `DIV`'s quotient: it is 0
or has the divisor's sign, and is smaller in magnitude; `Z` iff the divisor divides the first operand; `V` never. -/
def Obligations.ModResultAndFlags : Prop :=
  ∀ (s : State) (ra rb : RegIndex) (a b : Reg), Reg.ofIndex ra = some a → Reg.ofIndex rb = some b → s.reg b ≠ 0 →
    ∃ (f : Flags) (r : Int),
      r = (s.reg a).toInt - (s.reg b).toInt * ⌊((s.reg a).toInt : ℚ) / ((s.reg b).toInt : ℚ)⌋ ∧
      |r| < |(s.reg b).toInt| ∧ (r = 0 ∨ (r < 0 ↔ (s.reg b).toInt < 0)) ∧
      exec (.mod ra rb) s = .next ((s.setFlags f).setReg .ac (BitVec.ofInt 16 r)) ∧
      (f.z = true ↔ (s.reg b).toInt ∣ (s.reg a).toInt) ∧ (f.n = true ↔ r ≠ 0 ∧ (s.reg b).toInt < 0) ∧ f.v = false

/-- R244, R245, R247: `DIV`, `MOD`, `LSHFT` and `RSHFT` raise their own fault for exactly these second operands. -/
def Obligations.ArithmeticFaults : Prop :=
  ∀ (s : State) (ra rb : RegIndex) (a b : Reg), Reg.ofIndex ra = some a → Reg.ofIndex rb = some b → s.rs = .running →
    ((∃ t, exec (.div ra rb) s = .next t ∧ t.rs = .faulted .divideByZero) ↔ s.reg b = 0) ∧
    ((∃ t, exec (.mod ra rb) s = .next t ∧ t.rs = .faulted .moduloByZero) ↔ s.reg b = 0) ∧
    ((∃ t, exec (.lshft ra rb) s = .next t ∧ t.rs = .faulted .shiftCountNegative) ↔ 0x8000 ≤ (s.reg b).toNat) ∧
    ((∃ t, exec (.rshft ra rb) s = .next t ∧ t.rs = .faulted .shiftCountNegative) ↔ 0x8000 ≤ (s.reg b).toNat)

/-! ### Logical and shifts -/

/-- R118 to R120, R200 to R202: `AND`, `OR` and `XOR` leave the bitwise result in `ac`; `Z` iff it is 0, `N` iff its bit 15
is set, `V` never. -/
def Obligations.BitwiseResultsAndFlags : Prop :=
  ∀ (s : State) (ra rb : RegIndex) (a b : Reg), Reg.ofIndex ra = some a → Reg.ofIndex rb = some b →
    (exec (.and ra rb) s = .next ((s.setFlags
      { z := decide (s.reg a &&& s.reg b = 0), n := (s.reg a).msb && (s.reg b).msb, v := false }).setReg .ac
        (s.reg a &&& s.reg b))) ∧
    (exec (.or ra rb) s = .next ((s.setFlags
      { z := decide (s.reg a = 0 ∧ s.reg b = 0), n := (s.reg a).msb || (s.reg b).msb, v := false }).setReg .ac
        (s.reg a ||| s.reg b))) ∧
    (exec (.xor ra rb) s = .next ((s.setFlags
      { z := decide (s.reg a = s.reg b), n := (s.reg a).msb ^^ (s.reg b).msb, v := false }).setReg .ac
        (s.reg a ^^^ s.reg b)))

/-- R121, R203: with a count that is not negative, `LSHFT` leaves the 16-bit pattern shifted left in `ac`, 0 for counts of
16 and more; the flags classify the exact shifted value. -/
def Obligations.LshftResultAndFlags : Prop :=
  ∀ (s : State) (ra rb : RegIndex) (a b : Reg), Reg.ofIndex ra = some a → Reg.ofIndex rb = some b →
    (s.reg b).toNat < 0x8000 →
      ∃ f : Flags, exec (.lshft ra rb) s = .next ((s.setFlags f).setReg .ac (s.reg a <<< (s.reg b).toNat)) ∧
        (f.z = true ↔ s.reg a = 0) ∧ (f.n = true ↔ (s.reg a).toInt < 0) ∧
        (f.v = true ↔ s.reg a ≠ 0 ∧ 65535 < |(s.reg a).toInt| * 2 ^ (s.reg b).toNat)

/-- R122, R204: with a count that is not negative, `RSHFT` leaves the signed value divided by the power of two and rounded
toward minus infinity in `ac`, the sign-propagating shift; `V` never. -/
def Obligations.RshftResultAndFlags : Prop :=
  ∀ (s : State) (ra rb : RegIndex) (a b : Reg), Reg.ofIndex ra = some a → Reg.ofIndex rb = some b →
    (s.reg b).toNat < 0x8000 →
      ∃ (f : Flags) (w : Word), exec (.rshft ra rb) s = .next ((s.setFlags f).setReg .ac w) ∧
        w.toInt = ⌊((s.reg a).toInt : ℚ) / 2 ^ (s.reg b).toNat⌋ ∧
        w = (s.reg a).sshiftRight (s.reg b).toNat ∧
        (f.z = true ↔ 0 ≤ (s.reg a).toInt ∧ (s.reg a).toInt < 2 ^ (s.reg b).toNat) ∧
        (f.n = true ↔ (s.reg a).toInt < 0) ∧ f.v = false

/-- R123, R205: `NOT` leaves the complement in `ac`, not in its operand; `Z` iff the operand is 0xFFFF, `N` iff its bit 15
is clear, `V` never. -/
def Obligations.NotResultAndFlags : Prop :=
  ∀ (s : State) (ra : RegIndex) (a : Reg), Reg.ofIndex ra = some a →
    exec (.not ra) s = .next ((s.setFlags { z := decide (s.reg a = 0xFFFF), n := !(s.reg a).msb, v := false }).setReg .ac
      (~~~ s.reg a))

/-- R149 (3), R243, R253: an ALU instruction with a bad register index raises `RegisterIndexNotFound`, the first operand's
before the second's. -/
def Obligations.AluInstructionsRejectBadIndicesInOperandOrder : Prop :=
  (∀ mk ∈ [Instr.add, Instr.sub, Instr.mult, Instr.div, Instr.mod, Instr.and, Instr.or, Instr.xor, Instr.lshft,
      Instr.rshft], ∀ (s : State) (ra rb : RegIndex),
    (Reg.ofIndex ra = none → ∃ t, exec (mk ra rb) s = .next t ∧ t.rs = .faulted (.registerIndexNotFound ra)) ∧
    (∀ a, Reg.ofIndex ra = some a → Reg.ofIndex rb = none →
      ∃ t, exec (mk ra rb) s = .next t ∧ t.rs = .faulted (.registerIndexNotFound rb))) ∧
  (∀ (s : State) (ra : RegIndex), Reg.ofIndex ra = none →
    ∃ t, exec (.not ra) s = .next t ∧ t.rs = .faulted (.registerIndexNotFound ra))

/-! ### Control flow and halt -/

/-- R210, R211: `JR rs` and `JI imm16` set `ip` to the target and change nothing else; `JR` with a bad index raises. -/
def Obligations.JumpsSetIpAndNothingElse : Prop :=
  ∀ s : State,
    (∀ (rs : RegIndex) (r : Reg), Reg.ofIndex rs = some r → exec (.jr rs) s = .next (s.setReg .ip (s.reg r))) ∧
    (∀ rs : RegIndex, Reg.ofIndex rs = none →
      ∃ t, exec (.jr rs) s = .next t ∧ t.rs = .faulted (.registerIndexNotFound rs)) ∧
    (∀ w : Word, exec (.ji w) s = .next (s.setReg .ip w))

/-- R213 to R218: the encoding and the condition of each branch. Taken, it sets `ip` to the immediate; not taken, `ip` is at
the next instruction; it changes nothing else and writes no flag. First for the instruction, then for the whole step. -/
def Obligations.BranchesTestTheirFlags : Prop :=
  ∀ (s : State) (w : Word) (hi lo op : Byte) (branch : Word → Instr) (taken : Flags → Bool),
    w.toNat = hi.toNat * 256 + lo.toNat →
    (op, branch, taken) ∈ ([
      (0x17, Instr.beq, fun f => f.z),
      (0x18, Instr.bne, fun f => !f.z),
      (0x19, Instr.blt, fun f => f.n),
      (0x1A, Instr.ble, fun f => f.n || f.z),
      (0x1B, Instr.bgt, fun f => !f.n),
      (0x1C, Instr.bge, fun f => !f.n || f.z)] : List (Byte × (Word → Instr) × (Flags → Bool))) →
    encode (branch w) = [op, hi, lo] ∧
    exec (branch w) s = .next (if taken s.flags = true then s.setReg .ip w else s) ∧
    (s.rs = .running → s.window = [op, hi, lo] → (s.reg .ip).toNat + 2 < s.cfg.progSize → s.cfg.progSize ≤ 65536 →
      step s = .next (if taken s.flags = true then s.setReg .ip w else s.setReg .ip (s.reg .ip + 3)))

/-- R219: after `SUB ra,rb` the six branches compare the two operands as signed integers; `BGT` and `BGE` both test
greater or equal. -/
def Obligations.BranchesAfterSubCompareSignedOperands : Prop :=
  ∀ (s : State) (ra rb : RegIndex) (a b : Reg) (w : Word), Reg.ofIndex ra = some a → Reg.ofIndex rb = some b →
    ∃ t, exec (.sub ra rb) s = .next t ∧
      exec (.beq w) t = .next (if s.reg a = s.reg b then t.setReg .ip w else t) ∧
      exec (.bne w) t = .next (if s.reg a ≠ s.reg b then t.setReg .ip w else t) ∧
      exec (.blt w) t = .next (if (s.reg a).toInt < (s.reg b).toInt then t.setReg .ip w else t) ∧
      exec (.ble w) t = .next (if (s.reg a).toInt ≤ (s.reg b).toInt then t.setReg .ip w else t) ∧
      exec (.bgt w) t = .next (if (s.reg b).toInt ≤ (s.reg a).toInt then t.setReg .ip w else t) ∧
      exec (.bge w) t = .next (if (s.reg b).toInt ≤ (s.reg a).toInt then t.setReg .ip w else t)

/-- R230: `HLT` sets the run state to `Halted` and changes nothing else; its step also moves `ip` past the one byte. -/
def Obligations.HltHaltsAndChangesNothingElse : Prop :=
  ∀ s : State, encode .hlt = [0x1D] ∧ exec .hlt s = .next (s.setRs .halted) ∧
    (s.rs = .running → (s.reg .ip).toNat < s.cfg.progSize → s.prog.get (s.reg .ip).toNat = 0x1D →
      step s = .next ((s.setReg .ip (s.reg .ip + 1)).setRs .halted))

/-! ### The host's lifecycle -/

/-- R276, R273, R277: a CPU is loaded at most once and before it is stepped or run. A second or late load is refused; a load
that succeeds changes `PROG` and the label table alone, one that fails changes neither, and none writes outside `PROG`;
after a failed load nothing is stepped or run; a step or a run is the machine's, changes no label, and is followed by no load. The phases are the model's
way to tell these cases apart (log entry 11). R279 has the host ask for a run "once"; that a run asked for again or after
steps, of a CPU already halted or faulted too, is answered and not refused is the model's choice (log entry 15). -/
def Obligations.LoadIsOnceAndBeforeTheRun : Prop :=
  ∀ (h : Session) (functions : List (String × List Byte)) (byteCount fuel : Nat),
    (h.phase ≠ .constructed → loadProgram functions byteCount h = .refused .secondOrLateLoad) ∧
    (∀ h', loadProgram functions byteCount h = .loaded h' →
      h'.phase = .loaded ∧ h'.core = h.core.setSeg .prog h'.core.prog) ∧
    (∀ h', loadProgram functions byteCount h = .programTooLarge h' →
      h'.phase = .loadFailed ∧ h'.core = h.core ∧ h'.labels = h.labels) ∧
    (∀ c, loadProgram functions byteCount h ≠ .outOfBounds c) ∧
    (h.phase = .loadFailed → h.step = .error .loadHasFailed ∧ h.run fuel = .error .loadHasFailed) ∧
    (h.phase ≠ .loadFailed →
      (∀ t, step h.core = .next t → h.step = .ok { core := t, labels := h.labels, phase := .started }) ∧
      h.run fuel = .ok { core := run fuel h.core, labels := h.labels, phase := .started } ∧
      (h.core.rs ≠ .running → h.step = .error .notRunning))
end

