-- ==== Sys2Proof/Laws/State.lean ====
section
/-! SUPPORT. One lemma per field per update, so that no proof unfolds a record update. -/

namespace Sys2Proof.Machine

/-! ### Registers -/

theorem Regs.get_set (g : Regs) (r q : Reg) (w : Word) : (g.set r w).get q = if q = r then w else g.get q := by
  cases r <;> cases q <;> rfl

@[simp] theorem Regs.get_set_self (g : Regs) (r : Reg) (w : Word) : (g.set r w).get r = w := by cases r <;> rfl

@[simp] theorem Regs.get_set_of_ne (g : Regs) {r q : Reg} (w : Word) (h : q ≠ r) : (g.set r w).get q = g.get q := by
  rw [Regs.get_set, if_neg h]

@[simp] theorem Regs.set_get_self (g : Regs) (r : Reg) : g.set r (g.get r) = g := by cases r <;> rfl

@[simp] theorem Regs.set_set_self (g : Regs) (r : Reg) (v w : Word) : (g.set r v).set r w = g.set r w := by
  cases r <;> rfl

theorem Regs.set_comm (g : Regs) {r q : Reg} (v w : Word) (h : r ≠ q) :
    (g.set r v).set q w = (g.set q w).set r v := by
  cases r <;> cases q <;> first | rfl | exact absurd rfl h

/-- Two register files that agree on every register are equal. -/
theorem Regs.eq_of_get {g h : Regs} (e : ∀ r, g.get r = h.get r) : g = h := by
  cases g; cases h
  simp only [Regs.mk.injEq]
  exact ⟨e .ip, e .lr, e .ac, e .r1, e .r2, e .r3, e .r4, e .r5, e .r6, e .r7, e .r8, e .sp, e .fp⟩

/-! ### setReg -/

theorem State.reg_setReg (s : State) (r q : Reg) (w : Word) :
    (s.setReg r w).reg q = if q = r then w else s.reg q := Regs.get_set s.regs r q w

@[simp] theorem State.reg_setReg_self (s : State) (r : Reg) (w : Word) : (s.setReg r w).reg r = w :=
  Regs.get_set_self s.regs r w

@[simp] theorem State.reg_setReg_of_ne (s : State) {r q : Reg} (w : Word) (h : q ≠ r) :
    (s.setReg r w).reg q = s.reg q := Regs.get_set_of_ne s.regs w h

@[simp] theorem State.setReg_setReg_self (s : State) (r : Reg) (v w : Word) :
    (s.setReg r v).setReg r w = s.setReg r w := by simp [State.setReg]

@[simp] theorem State.setReg_reg_self (s : State) (r : Reg) : s.setReg r (s.reg r) = s := by
  simp [State.setReg, State.reg]

theorem State.setReg_of_eq {s : State} {r : Reg} {w : Word} (h : s.reg r = w) : s.setReg r w = s := by
  rw [← h, State.setReg_reg_self]

theorem State.setReg_comm (s : State) {r q : Reg} (v w : Word) (h : r ≠ q) :
    (s.setReg r v).setReg q w = (s.setReg q w).setReg r v := by
  simp [State.setReg, Regs.set_comm s.regs v w h]

@[simp] theorem State.setReg_cfg (s : State) (r : Reg) (w : Word) : (s.setReg r w).cfg = s.cfg := rfl
@[simp] theorem State.setReg_regs (s : State) (r : Reg) (w : Word) : (s.setReg r w).regs = s.regs.set r w := rfl
@[simp] theorem State.setReg_flags (s : State) (r : Reg) (w : Word) : (s.setReg r w).flags = s.flags := rfl
@[simp] theorem State.setReg_rs (s : State) (r : Reg) (w : Word) : (s.setReg r w).rs = s.rs := rfl
@[simp] theorem State.setReg_gp (s : State) (r : Reg) (w : Word) : (s.setReg r w).gp = s.gp := rfl
@[simp] theorem State.setReg_prog (s : State) (r : Reg) (w : Word) : (s.setReg r w).prog = s.prog := rfl
@[simp] theorem State.setReg_stack (s : State) (r : Reg) (w : Word) : (s.setReg r w).stack = s.stack := rfl
@[simp] theorem State.setReg_io (s : State) (r : Reg) (w : Word) : (s.setReg r w).io = s.io := rfl
@[simp] theorem State.setReg_disp (s : State) (r : Reg) (w : Word) : (s.setReg r w).disp = s.disp := rfl
@[simp] theorem State.setReg_seg (s : State) (r : Reg) (w : Word) (g : Seg) : (s.setReg r w).seg g = s.seg g := by
  cases g <;> rfl

/-! ### setFlags -/

@[simp] theorem State.setFlags_cfg (s : State) (f : Flags) : (s.setFlags f).cfg = s.cfg := rfl
@[simp] theorem State.setFlags_regs (s : State) (f : Flags) : (s.setFlags f).regs = s.regs := rfl
@[simp] theorem State.setFlags_reg (s : State) (f : Flags) (r : Reg) : (s.setFlags f).reg r = s.reg r := rfl
@[simp] theorem State.setFlags_flags (s : State) (f : Flags) : (s.setFlags f).flags = f := rfl
@[simp] theorem State.setFlags_rs (s : State) (f : Flags) : (s.setFlags f).rs = s.rs := rfl
@[simp] theorem State.setFlags_gp (s : State) (f : Flags) : (s.setFlags f).gp = s.gp := rfl
@[simp] theorem State.setFlags_prog (s : State) (f : Flags) : (s.setFlags f).prog = s.prog := rfl
@[simp] theorem State.setFlags_stack (s : State) (f : Flags) : (s.setFlags f).stack = s.stack := rfl
@[simp] theorem State.setFlags_io (s : State) (f : Flags) : (s.setFlags f).io = s.io := rfl
@[simp] theorem State.setFlags_disp (s : State) (f : Flags) : (s.setFlags f).disp = s.disp := rfl
@[simp] theorem State.setFlags_seg (s : State) (f : Flags) (g : Seg) : (s.setFlags f).seg g = s.seg g := by
  cases g <;> rfl

/-! ### setRs and takeFault -/

@[simp] theorem State.setRs_cfg (s : State) (r : RunState) : (s.setRs r).cfg = s.cfg := rfl
@[simp] theorem State.setRs_regs (s : State) (r : RunState) : (s.setRs r).regs = s.regs := rfl
@[simp] theorem State.setRs_reg (s : State) (r : RunState) (q : Reg) : (s.setRs r).reg q = s.reg q := rfl
@[simp] theorem State.setRs_flags (s : State) (r : RunState) : (s.setRs r).flags = s.flags := rfl
@[simp] theorem State.setRs_rs (s : State) (r : RunState) : (s.setRs r).rs = r := rfl
@[simp] theorem State.setRs_gp (s : State) (r : RunState) : (s.setRs r).gp = s.gp := rfl
@[simp] theorem State.setRs_prog (s : State) (r : RunState) : (s.setRs r).prog = s.prog := rfl
@[simp] theorem State.setRs_stack (s : State) (r : RunState) : (s.setRs r).stack = s.stack := rfl
@[simp] theorem State.setRs_io (s : State) (r : RunState) : (s.setRs r).io = s.io := rfl
@[simp] theorem State.setRs_disp (s : State) (r : RunState) : (s.setRs r).disp = s.disp := rfl
@[simp] theorem State.setRs_seg (s : State) (r : RunState) (g : Seg) : (s.setRs r).seg g = s.seg g := by cases g <;> rfl

/-- Taking a fault changes the run state and nothing else. -/
theorem takeFault_eq (c : Fault) (s : State) : takeFault c s = s.setRs (.faulted c) := rfl

@[simp] theorem takeFault_rs (c : Fault) (s : State) : (takeFault c s).rs = .faulted c := rfl
@[simp] theorem takeFault_cfg (c : Fault) (s : State) : (takeFault c s).cfg = s.cfg := rfl
@[simp] theorem takeFault_flags (c : Fault) (s : State) : (takeFault c s).flags = s.flags := rfl
@[simp] theorem takeFault_regs (c : Fault) (s : State) : (takeFault c s).regs = s.regs := rfl
@[simp] theorem takeFault_reg (c : Fault) (s : State) (r : Reg) : (takeFault c s).reg r = s.reg r := rfl
@[simp] theorem takeFault_seg (c : Fault) (s : State) (g : Seg) : (takeFault c s).seg g = s.seg g := by cases g <;> rfl

/-! ### setSeg -/

@[simp] theorem State.setSeg_cfg (s : State) (g : Seg) (m : Memory) : (s.setSeg g m).cfg = s.cfg := by cases g <;> rfl
@[simp] theorem State.setSeg_regs (s : State) (g : Seg) (m : Memory) : (s.setSeg g m).regs = s.regs := by cases g <;> rfl
@[simp] theorem State.setSeg_reg (s : State) (g : Seg) (m : Memory) (r : Reg) : (s.setSeg g m).reg r = s.reg r := by
  cases g <;> rfl
@[simp] theorem State.setSeg_flags (s : State) (g : Seg) (m : Memory) : (s.setSeg g m).flags = s.flags := by
  cases g <;> rfl
@[simp] theorem State.setSeg_rs (s : State) (g : Seg) (m : Memory) : (s.setSeg g m).rs = s.rs := by cases g <;> rfl
@[simp] theorem State.seg_setSeg_self (s : State) (g : Seg) (m : Memory) : (s.setSeg g m).seg g = m := by cases g <;> rfl
@[simp] theorem State.seg_setSeg_of_ne (s : State) {g h : Seg} (m : Memory) (e : h ≠ g) :
    (s.setSeg g m).seg h = s.seg h := by
  cases g <;> cases h <;> first | rfl | exact absurd rfl e

@[simp] theorem State.setSeg_setSeg_self (s : State) (g : Seg) (m m' : Memory) :
    (s.setSeg g m).setSeg g m' = s.setSeg g m' := by cases g <;> rfl

/-- Register writes and segment writes commute. -/
theorem State.setReg_setSeg (s : State) (r : Reg) (w : Word) (g : Seg) (m : Memory) :
    (s.setReg r w).setSeg g m = (s.setSeg g m).setReg r w := by cases g <;> rfl

@[simp] theorem State.setSeg_gp_gp (s : State) (m : Memory) : (s.setSeg .gp m).gp = m := rfl
@[simp] theorem State.setSeg_gp_stack (s : State) (m : Memory) : (s.setSeg .gp m).stack = s.stack := rfl
@[simp] theorem State.setSeg_gp_prog (s : State) (m : Memory) : (s.setSeg .gp m).prog = s.prog := rfl
@[simp] theorem State.setSeg_stack_gp (s : State) (m : Memory) : (s.setSeg .stack m).gp = s.gp := rfl
@[simp] theorem State.setSeg_stack_stack (s : State) (m : Memory) : (s.setSeg .stack m).stack = m := rfl
@[simp] theorem State.setSeg_stack_prog (s : State) (m : Memory) : (s.setSeg .stack m).prog = s.prog := rfl
@[simp] theorem State.setSeg_prog_prog (s : State) (m : Memory) : (s.setSeg .prog m).prog = m := rfl

@[simp] theorem State.seg_stack (s : State) : s.seg .stack = s.stack := rfl
@[simp] theorem State.seg_gp (s : State) : s.seg .gp = s.gp := rfl
@[simp] theorem State.seg_prog (s : State) : s.seg .prog = s.prog := rfl
@[simp] theorem segCap_gp (c : Config) : segCap c .gp = c.gpSize := rfl
@[simp] theorem segCap_prog (c : Config) : segCap c .prog = c.progSize := rfl
@[simp] theorem segCap_stack (c : Config) : segCap c .stack = c.stackSize := rfl

end Sys2Proof.Machine
end

