-- ==== Sys2Proof/Laws/Memory.lean ====
section
/-! SUPPORT. The laws of sparse memory: a read after a write, and every operation keeps the canonical form and the
capacity. The read laws hold of every list of cells, canonical or not. -/

namespace Sys2Proof.Machine

@[simp] theorem Memory.get_nil (a : Nat) : Memory.get [] a = 0 := rfl

theorem Memory.get_erase (m : Memory) (a b : Nat) : (Memory.erase m a).get b = if b = a then 0 else m.get b := by
  induction m with
  | nil => simp [Memory.erase]
  | cons c t ih =>
    obtain ⟨k, v⟩ := c
    by_cases hk : k = a
    · rw [Memory.erase, if_pos hk, ih]
      by_cases hb : b = a
      · rw [if_pos hb, if_pos hb]
      · rw [if_neg hb, if_neg hb, Memory.get, if_neg (by omega)]
    · rw [Memory.erase, if_neg hk, Memory.get, Memory.get, ih]
      by_cases hkb : k = b
      · rw [if_pos hkb, if_pos hkb, if_neg (by omega)]
      · rw [if_neg hkb, if_neg hkb]

theorem Memory.get_insert_self (m : Memory) (a : Nat) (v : Byte) (h : ∀ c ∈ m, c.1 ≠ a) :
    (Memory.insert m a v).get a = v := by
  induction m with
  | nil => simp [Memory.insert, Memory.get]
  | cons c t ih =>
    obtain ⟨k, w⟩ := c
    by_cases hk : a < k
    · simp [Memory.insert, hk, Memory.get]
    · have hne : k ≠ a := h (k, w) (by simp)
      simp [Memory.insert, hk, Memory.get, hne, ih fun c hc => h c (by simp [hc])]

theorem Memory.get_insert_of_ne (m : Memory) {a b : Nat} (v : Byte) (h : b ≠ a) :
    (Memory.insert m a v).get b = m.get b := by
  induction m with
  | nil => simp [Memory.insert, Memory.get, Ne.symm h]
  | cons c t ih =>
    obtain ⟨k, w⟩ := c
    by_cases hk : a < k
    · simp [Memory.insert, hk, Memory.get, Ne.symm h]
    · rw [Memory.insert, if_neg hk, Memory.get, Memory.get, ih]

theorem Memory.ne_of_mem_erase {m : Memory} {a : Nat} {c : Host.Cell} (h : c ∈ Memory.erase m a) : c.1 ≠ a := by
  induction m with
  | nil => simp [Memory.erase] at h
  | cons d t ih =>
    obtain ⟨k, w⟩ := d
    by_cases hk : k = a
    · exact ih (by simpa [Memory.erase, hk] using h)
    · rcases (by simpa [Memory.erase, hk] using h : c = (k, w) ∨ c ∈ Memory.erase t a) with rfl | h'
      · exact hk
      · exact ih h'

theorem Memory.mem_of_mem_erase {m : Memory} {a : Nat} {c : Host.Cell} (h : c ∈ Memory.erase m a) : c ∈ m := by
  induction m with
  | nil => simp [Memory.erase] at h
  | cons d t ih =>
    obtain ⟨k, w⟩ := d
    by_cases hk : k = a
    · exact List.mem_cons_of_mem _ (ih (by simpa [Memory.erase, hk] using h))
    · rcases (by simpa [Memory.erase, hk] using h : c = (k, w) ∨ c ∈ Memory.erase t a) with rfl | h'
      · simp
      · exact List.mem_cons_of_mem _ (ih h')

/-- A read after a write: the byte written at its address, every other byte as before. -/
theorem Memory.get_set (m : Memory) (a b : Nat) (v : Byte) : (m.set a v).get b = if b = a then v else m.get b := by
  unfold Memory.set
  by_cases hv : v = 0
  · rw [if_pos hv, Memory.get_erase, hv]
  · rw [if_neg hv]
    by_cases hb : b = a
    · rw [hb, if_pos rfl, Memory.get_insert_self _ _ _ fun c hc => Memory.ne_of_mem_erase hc]
    · rw [if_neg hb, Memory.get_insert_of_ne _ _ hb, Memory.get_erase, if_neg hb]

@[simp] theorem Memory.get_set_self (m : Memory) (a : Nat) (v : Byte) : (m.set a v).get a = v := by
  rw [Memory.get_set, if_pos rfl]

@[simp] theorem Memory.get_set_of_ne (m : Memory) {a b : Nat} (v : Byte) (h : b ≠ a) : (m.set a v).get b = m.get b := by
  rw [Memory.get_set, if_neg h]

/-- The bytes after a word is written: its two bytes, most significant first, and every other byte as before. -/
theorem Memory.get_setWord (m : Memory) (a b : Nat) (w : Word) :
    (m.setWord a w).get b = if b = a then highByte w else if b = a + 1 then lowByte w else m.get b := by
  unfold Memory.setWord
  rw [Memory.get_set, Memory.get_set]
  by_cases h : b = a
  · have : b ≠ a + 1 := by omega
    simp [h]
  · simp [h]

theorem toNat_beWord (hi lo : Byte) : (beWord hi lo).toNat = hi.toNat * 256 + lo.toNat := by
  unfold beWord
  rw [BitVec.toNat_append, ← Nat.shiftLeft_add_eq_or_of_lt lo.isLt, Nat.shiftLeft_eq]

theorem toNat_highByte (w : Word) : (highByte w).toNat = w.toNat / 256 := by
  have := w.isLt
  simp [highByte, BitVec.extractLsb'_toNat, Nat.shiftRight_eq_div_pow]
  omega

theorem toNat_lowByte (w : Word) : (lowByte w).toNat = w.toNat % 256 := by
  simp [lowByte, BitVec.extractLsb'_toNat]

@[simp] theorem beWord_high_low (w : Word) : beWord (highByte w) (lowByte w) = w := by
  apply BitVec.eq_of_toNat_eq
  rw [toNat_beWord, toNat_highByte, toNat_lowByte]
  omega

@[simp] theorem highByte_beWord (hi lo : Byte) : highByte (beWord hi lo) = hi := by
  apply BitVec.eq_of_toNat_eq
  have := lo.isLt
  rw [toNat_highByte, toNat_beWord]
  omega

@[simp] theorem lowByte_beWord (hi lo : Byte) : lowByte (beWord hi lo) = lo := by
  apply BitVec.eq_of_toNat_eq
  have := lo.isLt
  rw [toNat_lowByte, toNat_beWord]
  omega

/-- The word written at an address is read back from it. -/
@[simp] theorem Memory.getWord_setWord_self (m : Memory) (a : Nat) (w : Word) : (m.setWord a w).getWord a = w := by
  simp [Memory.getWord, Memory.get_setWord]

/-- A word that does not overlap the one written reads as before. -/
theorem Memory.getWord_setWord_of_disjoint (m : Memory) {a b : Nat} (w : Word) (h : b + 1 < a ∨ a + 1 < b) :
    (m.setWord a w).getWord b = m.getWord b := by
  have h1 : b ≠ a := by omega
  have h2 : b ≠ a + 1 := by omega
  have h3 : b + 1 ≠ a := by omega
  simp [Memory.getWord, Memory.get_setWord, h1, h2, h3]

/-! ### The canonical form -/

theorem Memory.wf_cons (k : Nat) (v : Byte) (t : Memory) :
    Memory.wf ((k, v) :: t) = true ↔ v ≠ 0 ∧ (∀ c ∈ t, k < c.1) ∧ Memory.wf t = true := by
  induction t generalizing k v with
  | nil => simp [Memory.wf]
  | cons d t ih =>
    obtain ⟨k', v'⟩ := d
    simp only [Memory.wf, Bool.and_eq_true, bne_iff_ne, decide_eq_true_eq, List.mem_cons, forall_eq_or_imp]
    rw [ih]
    constructor
    · rintro ⟨⟨h1, h2⟩, h3, h4, h5⟩
      exact ⟨h1, ⟨h2, fun c hc => h2.trans (h4 c hc)⟩, h3, h4, h5⟩
    · rintro ⟨h1, ⟨h2, _⟩, h3, h4, h5⟩
      exact ⟨⟨h1, h2⟩, h3, h4, h5⟩

theorem Memory.wf_erase {m : Memory} (a : Nat) (h : m.wf = true) : (Memory.erase m a).wf = true := by
  induction m with
  | nil => rfl
  | cons d t ih =>
    obtain ⟨k, v⟩ := d
    rw [Memory.wf_cons] at h
    by_cases hk : k = a
    · simpa [Memory.erase, hk] using ih h.2.2
    · simp only [Memory.erase, if_neg hk, Memory.wf_cons]
      exact ⟨h.1, fun c hc => h.2.1 c (Memory.mem_of_mem_erase hc), ih h.2.2⟩

theorem Memory.mem_insert {m : Memory} {a : Nat} {v : Byte} {c : Host.Cell} (h : c ∈ Memory.insert m a v) :
    c = (a, v) ∨ c ∈ m := by
  induction m with
  | nil => simpa [Memory.insert] using h
  | cons d t ih =>
    obtain ⟨k, w⟩ := d
    by_cases hk : a < k
    · simpa [Memory.insert, hk] using h
    · rcases (by simpa [Memory.insert, hk] using h : c = (k, w) ∨ c ∈ Memory.insert t a v) with rfl | h'
      · simp
      · rcases ih h' with h'' | h''
        · exact .inl h''
        · exact .inr (List.mem_cons_of_mem _ h'')

theorem Memory.wf_insert {m : Memory} {a : Nat} {v : Byte} (h : m.wf = true) (ha : ∀ c ∈ m, c.1 ≠ a) (hv : v ≠ 0) :
    (Memory.insert m a v).wf = true := by
  induction m with
  | nil => exact bne_iff_ne.mpr hv
  | cons d t ih =>
    obtain ⟨k, w⟩ := d
    rw [Memory.wf_cons] at h
    by_cases hk : a < k
    · simp only [Memory.insert, if_pos hk, Memory.wf_cons]
      refine ⟨hv, fun c hc => ?_, h⟩
      rcases List.mem_cons.mp hc with rfl | hc
      · exact hk
      · exact hk.trans (h.2.1 c hc)
    · have hne : k ≠ a := ha (k, w) (by simp)
      simp only [Memory.insert, if_neg hk, Memory.wf_cons]
      refine ⟨h.1, fun c hc => ?_, ih h.2.2 fun c hc => ha c (List.mem_cons_of_mem _ hc)⟩
      rcases Memory.mem_insert hc with rfl | hc
      · simp only; omega
      · exact h.2.1 c hc

/-- A byte write keeps the canonical form. -/
theorem Memory.wf_set {m : Memory} (a : Nat) (v : Byte) (h : m.wf = true) : (m.set a v).wf = true := by
  unfold Memory.set
  by_cases hv : v = 0
  · rw [if_pos hv]; exact Memory.wf_erase a h
  · rw [if_neg hv]; exact Memory.wf_insert (Memory.wf_erase a h) (fun c hc => Memory.ne_of_mem_erase hc) hv

/-- A word write keeps the canonical form. -/
theorem Memory.wf_setWord {m : Memory} (a : Nat) (w : Word) (h : m.wf = true) : (m.setWord a w).wf = true :=
  Memory.wf_set _ _ (Memory.wf_set _ _ h)

theorem Memory.below_iff (m : Memory) (cap : Nat) : m.below cap = true ↔ ∀ c ∈ m, c.1 < cap := by
  simp [Memory.below]

/-- A byte write inside the capacity lists no address outside it. -/
theorem Memory.below_set {m : Memory} {cap a : Nat} (v : Byte) (h : m.below cap = true) (ha : a < cap) :
    (m.set a v).below cap = true := by
  rw [Memory.below_iff] at *
  intro c hc
  unfold Memory.set at hc
  split at hc
  · exact h c (Memory.mem_of_mem_erase hc)
  · rcases Memory.mem_insert hc with rfl | hc
    · exact ha
    · exact h c (Memory.mem_of_mem_erase hc)

/-- A word write inside the capacity lists no address outside it. -/
theorem Memory.below_setWord {m : Memory} {cap a : Nat} (w : Word) (h : m.below cap = true) (ha : a + 1 < cap) :
    (m.setWord a w).below cap = true :=
  Memory.below_set _ (Memory.below_set _ h (by omega)) ha

/-- Canonical memories that read alike are equal. -/
theorem Memory.eq_of_get {m m' : Memory} (h : m.wf = true) (h' : m'.wf = true) (e : ∀ a, m.get a = m'.get a) : m = m' := by
  have zero_of_lt : ∀ (t : Memory) (a : Nat), (∀ c ∈ t, a < c.1) → t.get a = 0 := by
    intro t a ht
    induction t with
    | nil => rfl
    | cons d t ih =>
      obtain ⟨k, w⟩ := d
      have : a < k := ht (k, w) (by simp)
      have hne : k ≠ a := by omega
      simpa [Memory.get, hne] using ih fun c hc => ht c (by simp [hc])
  induction m generalizing m' with
  | nil =>
    cases m' with
    | nil => rfl
    | cons d t =>
      obtain ⟨k, w⟩ := d
      rw [Memory.wf_cons] at h'
      exact absurd (by simpa [Memory.get] using e k) (Ne.symm h'.1)
  | cons d t ih =>
    obtain ⟨k, v⟩ := d
    rw [Memory.wf_cons] at h
    cases m' with
    | nil => exact absurd (by simpa [Memory.get] using e k) h.1
    | cons d' t' =>
      obtain ⟨k', v'⟩ := d'
      rw [Memory.wf_cons] at h'
      have hk : k = k' := by
        rcases Nat.lt_trichotomy k k' with hlt | heq | hgt
        · have := e k
          have hz : Memory.get t' k = 0 := zero_of_lt t' k fun c hc => hlt.trans (h'.2.1 c hc)
          have hne : k' ≠ k := by omega
          simp [Memory.get, hne, hz] at this
          exact absurd this h.1
        · exact heq
        · have := e k'
          have hz : Memory.get t k' = 0 := zero_of_lt t k' fun c hc => hgt.trans (h.2.1 c hc)
          have hne : k ≠ k' := by omega
          simp [Memory.get, hne, hz] at this
          exact absurd this.symm h'.1
      subst hk
      have hv : v = v' := by simpa [Memory.get] using e k
      subst hv
      congr 1
      refine ih h.2.2 h'.2.2 fun a => ?_
      by_cases ha : k = a
      · subst ha
        rw [zero_of_lt t k h.2.1, zero_of_lt t' k h'.2.1]
      · simpa [Memory.get, ha] using e a

/-- After construction, and so after reset, every segment's memory is in canonical form. -/
theorem construct_wf (c : Config) (g : Seg) : ((State.construct c).seg g).wf = true := by cases g <;> rfl

end Sys2Proof.Machine
end

