-- ==== Sys2Proof/Laws/Ops.lean ====
section
/-! SUPPORT. What each shared operation can do, said once: sequencing, the segment primitives, registers by index, fetch,
push, pop, and taking a fault. -/

namespace Sys2Proof.Machine

/-! ### Sequencing -/

/-- Sequencing runs the second operation on the first one's answer, unless the first raised. -/
theorem bind_apply {α β : Type} (m : Micro α) (f : α → Micro β) (s : State) :
    (m >>= f) s = match m s with
      | .ok a t => f a t
      | .error c t => .error c t := by
  show EStateM.bind m f s = _
  unfold EStateM.bind
  cases m s <;> rfl

theorem bind_of_ok {α β : Type} {m : Micro α} {f : α → Micro β} {s t : State} {a : α} (h : m s = .ok a t) :
    (m >>= f) s = f a t := by rw [bind_apply, h]

theorem bind_of_error {α β : Type} {m : Micro α} {f : α → Micro β} {s t : State} {c : Fault} (h : m s = .error c t) :
    (m >>= f) s = .error c t := by rw [bind_apply, h]

theorem bind_eq_ok {α β : Type} {m : Micro α} {f : α → Micro β} {s t : State} {b : β} :
    (m >>= f) s = .ok b t ↔ ∃ a u, m s = .ok a u ∧ f a u = .ok b t := by
  rw [bind_apply]
  cases m s <;> simp

theorem bind_eq_error {α β : Type} {m : Micro α} {f : α → Micro β} {s t : State} {c : Fault} :
    (m >>= f) s = .error c t ↔ m s = .error c t ∨ ∃ a u, m s = .ok a u ∧ f a u = .error c t := by
  rw [bind_apply]
  cases m s <;> simp

theorem map_apply {α β : Type} (f : α → β) (m : Micro α) (s : State) :
    (f <$> m) s = match m s with
      | .ok a t => .ok (f a) t
      | .error c t => .error c t := by
  show EStateM.map f m s = _
  unfold EStateM.map
  cases m s <;> rfl

@[simp] theorem pure_apply {α : Type} (a : α) (s : State) : (pure a : Micro α) s = .ok a s := rfl

@[simp] theorem get_apply (s : State) : (get : Micro State) s = .ok s s := rfl

@[simp] theorem raise_apply {α : Type} (c : Fault) (s : State) : (raise c : Micro α) s = .error c s := rfl

/-! ### An instruction's answer -/

theorem perform_of_ok {m : Micro Unit} {s t : State} (h : m s = .ok () t) : perform m s = .next t := by
  simp [perform, h]

theorem perform_of_error {m : Micro Unit} {s t : State} {c : Fault} (h : m s = .error c t) :
    perform m s = .next (takeFault c t) := by simp [perform, h]

/-- An instruction always answers a next state: the one its operations leave, or the fault they raised, taken. -/
theorem perform_cases {m : Micro Unit} {s t : State} (h : perform m s = .next t) :
    m s = .ok () t ∨ ∃ c u, m s = .error c u ∧ t = takeFault c u := by
  unfold perform at h
  cases hm : m s with
  | ok a u => rw [hm] at h; cases h; exact .inl rfl
  | error c u => rw [hm] at h; cases h; exact .inr ⟨c, u, rfl, rfl⟩

theorem perform_total (m : Micro Unit) (s : State) : ∃ t, perform m s = .next t := by
  unfold perform
  cases m s <;> exact ⟨_, rfl⟩

/-! ### Registers -/

@[simp] theorem readNamed_apply (r : Reg) (s : State) : readNamed r s = .ok (s.reg r) s := rfl

@[simp] theorem writeNamed_apply (r : Reg) (w : Word) (s : State) : writeNamed r w s = .ok () (s.setReg r w) := rfl

@[simp] theorem requestHalt_apply (s : State) : requestHalt s = .ok () (s.setRs .halted) := rfl

@[simp] theorem jump_apply (w : Word) (s : State) : jump w s = .ok () (s.setReg .ip w) := rfl

theorem readReg_of_some {n : RegIndex} {r : Reg} (h : Reg.ofIndex n = some r) (s : State) :
    readReg n s = .ok (s.reg r) s := by simp [readReg, h]

theorem readReg_of_none {n : RegIndex} (h : Reg.ofIndex n = none) (s : State) :
    readReg n s = .error (.registerIndexNotFound n) s := by simp [readReg, h]

theorem writeReg_of_some {n : RegIndex} {r : Reg} (h : Reg.ofIndex n = some r) (w : Word) (s : State) :
    writeReg n w s = .ok () (s.setReg r w) := by simp [writeReg, h]

theorem writeReg_of_none {n : RegIndex} (h : Reg.ofIndex n = none) (w : Word) (s : State) :
    writeReg n w s = .error (.registerIndexNotFound n) s := by simp [writeReg, h]

/-- The index of a register names that register. -/
@[simp] theorem Reg.ofIndex_index (r : Reg) : Reg.ofIndex r.index = some r := by cases r <;> rfl

/-- An index that names a register is that register's index. -/
theorem Reg.index_of_ofIndex {n : RegIndex} {r : Reg} (h : Reg.ofIndex n = some r) : n = r.index := by
  revert h
  unfold Reg.ofIndex
  split <;> rename_i e <;> intro h <;> cases h <;> exact BitVec.eq_of_toNat_eq e

/-! ### Segments -/

@[simp] theorem addressExists_iff (s : State) (g : Seg) (a : Nat) :
    addressExists s g a = true ↔ a < segCap s.cfg g := by simp [addressExists]

@[simp] theorem addressExists_eq_false_iff (s : State) (g : Seg) (a : Nat) :
    addressExists s g a = false ↔ segCap s.cfg g ≤ a := by simp [addressExists]

theorem memReadByte_eq (g : Seg) (a : Nat) (s : State) :
    memReadByte g a s =
      if a < segCap s.cfg g then .ok ((s.seg g).get a) s else .error (.addressOutOfBounds g a) s := by
  simp [memReadByte]

theorem memWriteByte_eq (g : Seg) (a : Nat) (b : Byte) (s : State) :
    memWriteByte g a b s =
      if a < segCap s.cfg g then .ok () (s.setSeg g ((s.seg g).set a b)) else .error (.addressOutOfBounds g a) s := by
  simp [memWriteByte]

/-- The first address of a word access that fails the bounds check (R54, R55). -/
def firstBadAddress (s : State) (g : Seg) (a : Nat) : Nat := if a < segCap s.cfg g then a + 1 else a

/-- The address a failing word access names is outside the segment. -/
theorem le_firstBadAddress {s : State} {g : Seg} {a : Nat} (h : ¬ a + 1 < segCap s.cfg g) :
    segCap s.cfg g ≤ firstBadAddress s g a := by
  unfold firstBadAddress
  by_cases h1 : a < segCap s.cfg g
  · rw [if_pos h1]; omega
  · rw [if_neg h1]; omega

theorem memReadWord_eq (g : Seg) (a : Nat) (s : State) :
    memReadWord g a s =
      if a + 1 < segCap s.cfg g then .ok ((s.seg g).getWord a) s
      else .error (.addressOutOfBounds g (firstBadAddress s g a)) s := by
  unfold memReadWord firstBadAddress
  by_cases h1 : a < segCap s.cfg g
  · by_cases h2 : a + 1 < segCap s.cfg g <;> simp [h1, h2]
  · have h2 : ¬ a + 1 < segCap s.cfg g := by omega
    simp [h1, h2]

theorem memWriteWord_eq (g : Seg) (a : Nat) (w : Word) (s : State) :
    memWriteWord g a w s =
      if a + 1 < segCap s.cfg g then .ok () (s.setSeg g ((s.seg g).setWord a w))
      else .error (.addressOutOfBounds g (firstBadAddress s g a)) s := by
  unfold memWriteWord firstBadAddress
  by_cases h1 : a < segCap s.cfg g
  · by_cases h2 : a + 1 < segCap s.cfg g <;> simp [h1, h2]
  · have h2 : ¬ a + 1 < segCap s.cfg g := by omega
    simp [h1, h2]

/-! ### Fetch, push, pop -/

/-- A push moves `sp` down by 2 except at 0. -/
theorem spAfterPush_eq (sp : Word) : spAfterPush sp = if sp = 0 then 0 else sp - 2 := by
  unfold spAfterPush Config.spMin
  by_cases h : sp = 0
  · simp [h]
  · have : 0 < sp.toNat := Nat.pos_of_ne_zero fun e => h (BitVec.eq_of_toNat_eq (by simpa using e))
    rw [if_pos this, if_neg h]

theorem toNat_spAfterPush {sp : Word} (h : 2 ≤ sp.toNat) : (spAfterPush sp).toNat = sp.toNat - 2 := by
  unfold spAfterPush Config.spMin
  rw [if_pos (by omega)]
  bv_omega

theorem spForPop_of_lt {c : Config} {sp : Word} (h : sp.toNat < c.spMax) : spForPop c sp = sp + 2 := by
  rw [spForPop, if_pos h]

theorem spForPop_of_not_lt {c : Config} {sp : Word} (h : ¬ sp.toNat < c.spMax) : spForPop c sp = sp := by
  rw [spForPop, if_neg h]

/-- A pop after a push comes back to where the push wrote, in the range of R146. -/
theorem spForPop_spAfterPush {c : Config} {sp : Word} (h : 2 ≤ sp.toNat) (h' : sp.toNat ≤ c.spMax) :
    spForPop c (spAfterPush sp) = sp := by
  rw [spForPop_of_lt (by rw [toNat_spAfterPush h]; omega), spAfterPush_eq, if_neg (by rintro rfl; simp at h)]
  simp

/-- An `sp` between 1 and `SP_MAX` addresses a whole word of the stack. -/
theorem succ_lt_of_le_spMax {c : Config} {n : Nat} (h : 0 < n) (h' : n ≤ c.spMax) : n + 1 < c.stackSize := by
  unfold Config.spMax at h'
  omega

theorem fetch_eq (s : State) :
    fetch s =
      if (s.reg .ip).toNat < s.cfg.progSize then
        .ok (s.prog.get (s.reg .ip).toNat) (s.setReg .ip (s.reg .ip + 1))
      else .error (.addressOutOfBounds .prog (s.reg .ip).toNat) s := by
  simp only [fetch, bind_apply, readNamed_apply, memReadByte_eq, segCap_prog, State.seg_prog]
  by_cases h : (s.reg .ip).toNat < s.cfg.progSize <;> simp [h]

theorem fetchWord_eq (s : State) :
    fetchWord s =
      if (s.reg .ip).toNat + 1 < s.cfg.progSize then
        .ok (s.prog.getWord (s.reg .ip).toNat) (s.setReg .ip (s.reg .ip + 2))
      else .error (.addressOutOfBounds .prog (firstBadAddress s .prog (s.reg .ip).toNat)) s := by
  simp only [fetchWord, bind_apply, readNamed_apply, memReadWord_eq, segCap_prog, State.seg_prog]
  by_cases h : (s.reg .ip).toNat + 1 < s.cfg.progSize <;> simp [h]

theorem push_eq (v : Word) (s : State) :
    push v s =
      if (s.reg .sp).toNat + 1 < s.cfg.stackSize then
        .ok () ((s.setSeg .stack (s.stack.setWord (s.reg .sp).toNat v)).setReg .sp (spAfterPush (s.reg .sp)))
      else .error (.addressOutOfBounds .stack (firstBadAddress s .stack (s.reg .sp).toNat)) s := by
  simp only [push, bind_apply, readNamed_apply, memWriteWord_eq, segCap_stack, State.seg_stack]
  by_cases h : (s.reg .sp).toNat + 1 < s.cfg.stackSize <;> simp [h]

theorem pop_eq (s : State) :
    pop s =
      if (spForPop s.cfg (s.reg .sp)).toNat + 1 < s.cfg.stackSize then
        .ok (s.stack.getWord (spForPop s.cfg (s.reg .sp)).toNat) (s.setReg .sp (spForPop s.cfg (s.reg .sp)))
      else
        .error (.addressOutOfBounds .stack (firstBadAddress s .stack (spForPop s.cfg (s.reg .sp)).toNat))
          (s.setReg .sp (spForPop s.cfg (s.reg .sp))) := by
  simp only [pop, bind_apply, readNamed_apply, get_apply, writeNamed_apply, memReadWord_eq, segCap_stack,
    State.seg_stack, State.setReg_cfg, State.setReg_stack, firstBadAddress]
  rfl

/-- A push whose word fits, with the state it leaves. -/
theorem push_of_fits {s : State} (v : Word) (h : (s.reg .sp).toNat + 1 < s.cfg.stackSize) :
    push v s = .ok ()
      ((s.setSeg .stack (s.stack.setWord (s.reg .sp).toNat v)).setReg .sp (spAfterPush (s.reg .sp))) := by
  rw [push_eq, if_pos h]

/-- A push whose word does not fit changes nothing. -/
theorem push_of_not_fits {s : State} (v : Word) (h : ¬ (s.reg .sp).toNat + 1 < s.cfg.stackSize) :
    push v s = .error (.addressOutOfBounds .stack (firstBadAddress s .stack (s.reg .sp).toNat)) s := by
  rw [push_eq, if_neg h]

/-- A pop that moves `sp` to `q`, where a word fits. -/
theorem pop_of_fits {s : State} {q : Word} (hq : spForPop s.cfg (s.reg .sp) = q) (h : q.toNat + 1 < s.cfg.stackSize) :
    pop s = .ok (s.stack.getWord q.toNat) (s.setReg .sp q) := by
  rw [pop_eq, hq, if_pos h]

/-- A pop that moves `sp` to `q`, where no word fits. -/
theorem pop_of_not_fits {s : State} {q : Word} (hq : spForPop s.cfg (s.reg .sp) = q)
    (h : ¬ q.toNat + 1 < s.cfg.stackSize) :
    pop s = .error (.addressOutOfBounds .stack (firstBadAddress s .stack q.toNat)) (s.setReg .sp q) := by
  rw [pop_eq, hq, if_neg h]

/-! ### What every operation keeps -/

/-- `P` relates the state before an operation to the state after it, whether it answered or raised. -/
def Keeps (P : State → State → Prop) {α : Type} (m : Micro α) : Prop :=
  ∀ s, (∀ a t, m s = .ok a t → P s t) ∧ (∀ c t, m s = .error c t → P s t)

theorem keeps_bind {P : State → State → Prop} (trans : ∀ s t u, P s t → P t u → P s u) {α β : Type} {m : Micro α}
    {f : α → Micro β} (hm : Keeps P m) (hf : ∀ a, Keeps P (f a)) : Keeps P (m >>= f) := by
  intro s
  constructor
  · intro b t h
    obtain ⟨a, u, h1, h2⟩ := bind_eq_ok.mp h
    exact trans _ _ _ ((hm s).1 a u h1) ((hf a u).1 b t h2)
  · intro c t h
    rcases bind_eq_error.mp h with h1 | ⟨a, u, h1, h2⟩
    · exact (hm s).2 c t h1
    · exact trans _ _ _ ((hm s).1 a u h1) ((hf a u).2 c t h2)

theorem keeps_of_ok {P : State → State → Prop} {α : Type} {m : Micro α} (h : ∀ s, ∃ a t, m s = .ok a t ∧ P s t) :
    Keeps P m := by
  intro s
  obtain ⟨a, t, e, p⟩ := h s
  exact ⟨fun b u e' => by rw [e] at e'; cases e'; exact p, fun c u e' => by rw [e] at e'; cases e'⟩

theorem keeps_perform {P : State → State → Prop} (fault : ∀ c s t, P s t → P s (takeFault c t)) {m : Micro Unit}
    (hm : Keeps P m) {s t : State} (h : perform m s = .next t) : P s t := by
  rcases perform_cases h with e | ⟨c, u, e, rfl⟩
  · exact (hm s).1 () t e
  · exact fault c s u ((hm s).2 c u e)

end Sys2Proof.Machine
end

