-- ==== Sys2Proof/Laws/Alu.lean ====
section
/-! SUPPORT. What the arithmetic-logic unit and its two templates can do. -/

namespace Sys2Proof.Machine

theorem compute_of_ok {op : AluOp} {a b : Word} {raw : Int} (h : rawResult op a b = .ok raw) (s : State) :
    compute op a b s = .ok raw (s.setFlags (flagsOf raw)) := by simp [compute, h]

theorem compute_of_error {op : AluOp} {a b : Word} {c : Fault} (h : rawResult op a b = .error c) (s : State) :
    compute op a b s = .error c (s.setFlags flagsBefore) := by simp [compute, h]

/-- A binary ALU instruction that completes: the flags of the raw result, its low 16 bits in `ac`, nothing else. -/
theorem perform_alu2_of_ok {op : AluOp} {ra rb : RegIndex} {a b : Reg} {raw : Int} {s : State}
    (ha : Reg.ofIndex ra = some a) (hb : Reg.ofIndex rb = some b) (h : rawResult op (s.reg a) (s.reg b) = .ok raw) :
    perform (alu2 op ra rb) s = .next ((s.setFlags (flagsOf raw)).setReg .ac (u16 raw)) := by
  apply perform_of_ok
  rw [alu2, bind_of_ok (readReg_of_some ha s), bind_of_ok (readReg_of_some hb s), bind_of_ok (compute_of_ok h s)]
  rfl

/-- A binary ALU instruction whose operator raises: the flags of R112, the fault taken, `ac` not written. -/
theorem perform_alu2_of_error {op : AluOp} {ra rb : RegIndex} {a b : Reg} {c : Fault} {s : State}
    (ha : Reg.ofIndex ra = some a) (hb : Reg.ofIndex rb = some b) (h : rawResult op (s.reg a) (s.reg b) = .error c) :
    perform (alu2 op ra rb) s = .next (takeFault c (s.setFlags flagsBefore)) := by
  apply perform_of_error
  rw [alu2, bind_of_ok (readReg_of_some ha s), bind_of_ok (readReg_of_some hb s), bind_of_error (compute_of_error h s)]

/-- A binary ALU instruction with a bad first index. -/
theorem perform_alu2_of_bad_first {op : AluOp} {ra rb : RegIndex} (ha : Reg.ofIndex ra = none) (s : State) :
    perform (alu2 op ra rb) s = .next (takeFault (.registerIndexNotFound ra) s) := by
  apply perform_of_error
  rw [alu2, bind_of_error (readReg_of_none ha s)]

/-- A binary ALU instruction with a good first and a bad second index. -/
theorem perform_alu2_of_bad_second {op : AluOp} {ra rb : RegIndex} {a : Reg} (ha : Reg.ofIndex ra = some a)
    (hb : Reg.ofIndex rb = none) (s : State) :
    perform (alu2 op ra rb) s = .next (takeFault (.registerIndexNotFound rb) s) := by
  apply perform_of_error
  rw [alu2, bind_of_ok (readReg_of_some ha s), bind_of_error (readReg_of_none hb s)]

/-- The unary ALU instruction. -/
theorem perform_alu1_of_ok {op : AluOp} {ra : RegIndex} {a : Reg} {raw : Int} {s : State}
    (ha : Reg.ofIndex ra = some a) (h : rawResult op (s.reg a) 0 = .ok raw) :
    perform (alu1 op ra) s = .next ((s.setFlags (flagsOf raw)).setReg .ac (u16 raw)) := by
  apply perform_of_ok
  rw [alu1, bind_of_ok (readReg_of_some ha s), bind_of_ok (compute_of_ok h s)]
  rfl

theorem perform_alu1_of_bad_first {op : AluOp} {ra : RegIndex} (ha : Reg.ofIndex ra = none) (s : State) :
    perform (alu1 op ra) s = .next (takeFault (.registerIndexNotFound ra) s) := by
  apply perform_of_error
  rw [alu1, bind_of_error (readReg_of_none ha s)]

/-- The flags of a raw result (R125). -/
theorem flagsOf_z (raw : Int) : (flagsOf raw).z = true ↔ raw = 0 := by rw [flagsOf]; exact decide_eq_true_iff

theorem flagsOf_n (raw : Int) : (flagsOf raw).n = true ↔ raw < 0 := by rw [flagsOf]; exact decide_eq_true_iff

theorem flagsOf_v (raw : Int) : (flagsOf raw).v = true ↔ 65535 < raw.natAbs := by rw [flagsOf]; exact decide_eq_true_iff

theorem flagsOf_v_of_small {raw : Int} (h : -65535 ≤ raw) (h' : raw ≤ 65535) : (flagsOf raw).v = false := by
  rw [← Bool.not_eq_true, flagsOf_v]; omega

/-- A word's signed reading lies in `[-32768, 32767]` (R111). -/
theorem s16_bounds (w : Word) : -32768 ≤ s16 w ∧ s16 w ≤ 32767 := by
  have h1 := BitVec.le_toInt w
  have h2 := BitVec.toInt_lt (x := w)
  unfold s16
  constructor <;> norm_num at * <;> omega

/-- A word is zero exactly when its signed reading is. -/
theorem s16_eq_zero (w : Word) : s16 w = 0 ↔ w = 0 := by
  unfold s16
  constructor
  · intro h; exact BitVec.eq_of_toInt_eq (by simpa using h)
  · rintro rfl; rfl

/-- A word reads as negative exactly from 0x8000 up. -/
theorem s16_neg_iff (w : Word) : s16 w < 0 ↔ 0x8000 ≤ w.toNat := by
  unfold s16
  rw [BitVec.toInt_eq_toNat_cond]
  have := w.isLt
  split <;> omega

/-- A word that does not read as negative reads as its unsigned value. -/
theorem s16_toNat {w : Word} (h : w.toNat < 0x8000) : (s16 w).toNat = w.toNat := by
  unfold s16
  rw [BitVec.toInt_eq_toNat_cond]
  split <;> omega

/-! What the partial operators answer, by their second operand (R116, R117, R121, R122). -/

theorem rawResult_div_zero (a : Word) : rawResult .div a 0 = .error .divideByZero := rfl

theorem rawResult_div {b : Word} (h : b ≠ 0) (a : Word) : rawResult .div a b = .ok (Int.fdiv (s16 a) (s16 b)) := by
  simp only [rawResult]
  rw [if_neg fun e => h ((s16_eq_zero b).mp e)]

theorem rawResult_rem_zero (a : Word) : rawResult .rem a 0 = .error .moduloByZero := rfl

theorem rawResult_rem {b : Word} (h : b ≠ 0) (a : Word) :
    rawResult .rem a b = .ok (s16 a - s16 b * Int.fdiv (s16 a) (s16 b)) := by
  simp only [rawResult]
  rw [if_neg fun e => h ((s16_eq_zero b).mp e)]

theorem rawResult_lshift_neg {b : Word} (h : 0x8000 ≤ b.toNat) (a : Word) :
    rawResult .lshift a b = .error .shiftCountNegative := by
  simp only [rawResult]
  rw [if_pos ((s16_neg_iff b).mpr h)]

theorem rawResult_lshift {b : Word} (h : b.toNat < 0x8000) (a : Word) :
    rawResult .lshift a b = .ok (s16 a * 2 ^ b.toNat) := by
  simp only [rawResult]
  rw [if_neg (by rw [s16_neg_iff]; omega), s16_toNat h]
  push_cast
  rfl

theorem rawResult_rshift_neg {b : Word} (h : 0x8000 ≤ b.toNat) (a : Word) :
    rawResult .rshift a b = .error .shiftCountNegative := by
  simp only [rawResult]
  rw [if_pos ((s16_neg_iff b).mpr h)]

theorem rawResult_rshift {b : Word} (h : b.toNat < 0x8000) (a : Word) :
    rawResult .rshift a b = .ok (s16 a / 2 ^ b.toNat) := by
  simp only [rawResult]
  rw [if_neg (by rw [s16_neg_iff]; omega), s16_toNat h, Int.fdiv_eq_ediv_of_nonneg _ (by positivity)]
  push_cast
  rfl

/-- Storing the signed reading of a word stores the word. -/
@[simp] theorem u16_s16 (w : Word) : u16 (s16 w) = w := by simp [u16, s16]

/-- Truncation is a ring map: the stored sum, difference and product are those of the words. -/
theorem u16_add (a b : Word) : u16 (s16 a + s16 b) = a + b := by
  simp [u16, s16, BitVec.ofInt_add]

theorem u16_sub (a b : Word) : u16 (s16 a - s16 b) = a - b := by
  apply BitVec.eq_of_toInt_eq
  simp [u16, s16, BitVec.toInt_sub]

theorem u16_mul (a b : Word) : u16 (s16 a * s16 b) = a * b := by
  simp [u16, s16, BitVec.ofInt_mul]

end Sys2Proof.Machine
end

