-- ==== Sys2Proof/Laws/Load.lean ====
section
/-! SUPPORT. What a load can do: it writes `PROG` and nothing else, and keeps its memory in canonical form. -/

namespace Sys2Proof.Machine

/-- Only the contents of `PROG` differ, and they stay canonical and within the capacity. -/
def ProgOnly (s t : State) : Prop :=
  t = s.setSeg .prog t.prog ∧
    (s.prog.wf = true → t.prog.wf = true) ∧
    (s.prog.below s.cfg.progSize = true → t.prog.below s.cfg.progSize = true)

theorem ProgOnly.refl (s : State) : ProgOnly s s := ⟨rfl, id, id⟩

theorem ProgOnly.trans (s t u : State) (h : ProgOnly s t) (h' : ProgOnly t u) : ProgOnly s u := by
  obtain ⟨e, w, b⟩ := h
  obtain ⟨e', w', b'⟩ := h'
  have hc : t.cfg = s.cfg := by rw [e, State.setSeg_cfg]
  refine ⟨?_, fun x => w' (w x), fun x => ?_⟩
  · rw [e'] at *
    rw [e, State.setSeg_setSeg_self]
    rfl
  · rw [← hc]
    exact b' (hc ▸ b x)

theorem keeps_memWriteByte_prog (a : Nat) (b : Byte) : Keeps ProgOnly (memWriteByte .prog a b) := by
  intro s
  rw [memWriteByte_eq]
  by_cases h : a < segCap s.cfg .prog
  · rw [if_pos h]
    refine ⟨fun _ t e => ?_, fun _ _ e => nomatch e⟩
    cases e
    exact ⟨rfl, fun w => Memory.wf_set a b w, fun c => Memory.below_set b c h⟩
  · rw [if_neg h]
    refine ⟨fun _ _ e => (nomatch e), fun _ t e => ?_⟩
    cases e
    exact ProgOnly.refl s

theorem keeps_loadBytes (bs : List Byte) (a : Nat) : Keeps ProgOnly (loadBytes bs a) := by
  induction bs generalizing a with
  | nil => exact keeps_of_ok fun s => ⟨(), s, rfl, ProgOnly.refl s⟩
  | cons b bs ih => exact keeps_bind ProgOnly.trans (keeps_memWriteByte_prog a b) fun _ => ih (a + 1)

theorem keeps_loadFunctions (fs : List (String × List Byte)) (off : Nat) : Keeps ProgOnly (loadFunctions fs off) := by
  induction fs generalizing off with
  | nil => exact keeps_of_ok fun s => ⟨[], s, rfl, ProgOnly.refl s⟩
  | cons f fs ih =>
    exact keeps_bind ProgOnly.trans (keeps_loadBytes f.2 off) fun _ =>
      keeps_bind ProgOnly.trans (ih _) fun _ => keeps_of_ok fun s => ⟨_, s, rfl, ProgOnly.refl s⟩

/-- A load in the phase that allows it is the size check and the layout. -/
theorem loadProgram_of_constructed {h : Session} (hp : h.phase = .constructed) (fs : List (String × List Byte)) (n : Nat) :
    loadProgram fs n h = loadImage fs n h := by simp [loadProgram, hp]

/-- A load in any other phase is refused. -/
theorem loadProgram_of_not_constructed {h : Session} (hp : h.phase ≠ .constructed) (fs : List (String × List Byte))
    (n : Nat) : loadProgram fs n h = .refused .secondOrLateLoad := by
  unfold loadProgram
  cases e : h.phase with
  | constructed => exact absurd e hp
  | loaded => rfl
  | loadFailed => rfl
  | started => rfl

/-- A layout that fits `PROG` raises nothing. -/
theorem loadBytes_ok (bs : List Byte) (a : Nat) (s : State) (h : a + bs.length ≤ s.cfg.progSize) :
    ∃ t, loadBytes bs a s = .ok () t ∧ t.cfg = s.cfg := by
  induction bs generalizing a s with
  | nil => exact ⟨s, rfl, rfl⟩
  | cons b bs ih =>
    simp only [List.length_cons] at h
    have hw : memWriteByte .prog a b s = .ok () (s.setSeg .prog (s.prog.set a b)) := by
      have hc : a < segCap s.cfg .prog := show a < s.cfg.progSize by omega
      rw [memWriteByte_eq, if_pos hc]
      rfl
    obtain ⟨t, e, c⟩ := ih (a + 1) (s.setSeg .prog (s.prog.set a b)) (by rw [State.setSeg_cfg]; omega)
    exact ⟨t, by rw [loadBytes, bind_of_ok hw, e], by rw [c, State.setSeg_cfg]⟩

theorem loadFunctions_ok (fs : List (String × List Byte)) (off : Nat) (s : State)
    (h : off + trueByteCount fs + fs.length ≤ s.cfg.progSize) : ∃ ls t, loadFunctions fs off s = .ok ls t := by
  induction fs generalizing off s with
  | nil => exact ⟨[], s, rfl⟩
  | cons f fs ih =>
    simp only [trueByteCount, List.map_cons, List.sum_cons, List.length_cons] at h
    obtain ⟨t, e, c⟩ := loadBytes_ok f.2 off s (by omega)
    obtain ⟨ls, u, e'⟩ := ih (off + f.2.length + 1) t (by rw [c]; unfold trueByteCount; omega)
    exact ⟨_, u, by rw [loadFunctions, bind_of_ok e, bind_of_ok e']; rfl⟩

/-- Everything a load can answer where it is allowed. -/
theorem loadImage_cases (fs : List (String × List Byte)) (n : Nat) (h : Session) :
    (h.core.cfg.progSize ≤ n + fs.length ∧ loadImage fs n h = .programTooLarge { h with phase := .loadFailed }) ∨
    (n + fs.length < h.core.cfg.progSize ∧ n ≠ trueByteCount fs ∧ loadImage fs n h = .refused .falseByteCount) ∨
    (n + fs.length < h.core.cfg.progSize ∧ n = trueByteCount fs ∧
      ∃ ls s, loadFunctions fs 0 h.core = .ok ls s ∧ ProgOnly h.core s ∧
        loadImage fs n h = .loaded { core := s, labels := ls, phase := .loaded }) := by
  unfold loadImage
  by_cases hs : h.core.cfg.progSize ≤ n + fs.length
  · exact .inl ⟨hs, by rw [if_pos hs]⟩
  · rw [if_neg hs]
    by_cases ht : n = trueByteCount fs
    · obtain ⟨ls, s, e⟩ := loadFunctions_ok fs 0 h.core (by omega)
      refine .inr (.inr ⟨not_le.mp hs, ht, ls, s, e, (keeps_loadFunctions fs 0 h.core).1 ls s e, ?_⟩)
      rw [if_neg (not_not.mpr ht), e]
    · exact .inr (.inl ⟨not_le.mp hs, ht, by rw [if_pos ht]⟩)

end Sys2Proof.Machine
end

