-- ==== Sys2Proof/Laws/PerInstr.lean ====
section
/-! SUPPORT. Statements made per instruction: one lemma per constructor of `Instr`. -/

namespace Sys2Proof.Laws

/-- The encoding of an instruction is one opcode byte that the opcode map assigns to a row of the instruction's format,
followed by that format's operand bytes (spec/30_encoding.md R80, R81, R83). -/
def EncodedBytes.Statement (i : Instr) : Prop :=
  (encode i).length = i.format.length ∧
    ∃ op operands sh, encode i = op :: operands ∧ opcodeShape op = some sh ∧ sh.format = i.format

theorem EncodedBytes.lw (rd rs : RegIndex) : EncodedBytes.Statement (.lw rd rs) :=
  ⟨rfl, _, _, _, rfl, rfl, rfl⟩

theorem EncodedBytes.sw (rs rd : RegIndex) : EncodedBytes.Statement (.sw rs rd) :=
  ⟨rfl, _, _, _, rfl, rfl, rfl⟩

theorem EncodedBytes.swp (ra rb : RegIndex) : EncodedBytes.Statement (.swp ra rb) :=
  ⟨rfl, _, _, _, rfl, rfl, rfl⟩

theorem EncodedBytes.psh (rs : RegIndex) : EncodedBytes.Statement (.psh rs) :=
  ⟨rfl, _, _, _, rfl, rfl, rfl⟩

theorem EncodedBytes.pshi (imm : Word) : EncodedBytes.Statement (.pshi imm) :=
  ⟨rfl, _, _, _, rfl, rfl, rfl⟩

theorem EncodedBytes.pop (rd : RegIndex) : EncodedBytes.Statement (.pop rd) :=
  ⟨rfl, _, _, _, rfl, rfl, rfl⟩

theorem EncodedBytes.jali (imm : Word) : EncodedBytes.Statement (.jali imm) :=
  ⟨rfl, _, _, _, rfl, rfl, rfl⟩

theorem EncodedBytes.jal (rs : RegIndex) : EncodedBytes.Statement (.jal rs) :=
  ⟨rfl, _, _, _, rfl, rfl, rfl⟩

theorem EncodedBytes.ret : EncodedBytes.Statement (.ret) :=
  ⟨rfl, _, _, _, rfl, rfl, rfl⟩

theorem EncodedBytes.add (ra rb : RegIndex) : EncodedBytes.Statement (.add ra rb) :=
  ⟨rfl, _, _, _, rfl, rfl, rfl⟩

theorem EncodedBytes.sub (ra rb : RegIndex) : EncodedBytes.Statement (.sub ra rb) :=
  ⟨rfl, _, _, _, rfl, rfl, rfl⟩

theorem EncodedBytes.mult (ra rb : RegIndex) : EncodedBytes.Statement (.mult ra rb) :=
  ⟨rfl, _, _, _, rfl, rfl, rfl⟩

theorem EncodedBytes.div (ra rb : RegIndex) : EncodedBytes.Statement (.div ra rb) :=
  ⟨rfl, _, _, _, rfl, rfl, rfl⟩

theorem EncodedBytes.mod (ra rb : RegIndex) : EncodedBytes.Statement (.mod ra rb) :=
  ⟨rfl, _, _, _, rfl, rfl, rfl⟩

theorem EncodedBytes.and (ra rb : RegIndex) : EncodedBytes.Statement (.and ra rb) :=
  ⟨rfl, _, _, _, rfl, rfl, rfl⟩

theorem EncodedBytes.or (ra rb : RegIndex) : EncodedBytes.Statement (.or ra rb) :=
  ⟨rfl, _, _, _, rfl, rfl, rfl⟩

theorem EncodedBytes.xor (ra rb : RegIndex) : EncodedBytes.Statement (.xor ra rb) :=
  ⟨rfl, _, _, _, rfl, rfl, rfl⟩

theorem EncodedBytes.lshft (ra rb : RegIndex) : EncodedBytes.Statement (.lshft ra rb) :=
  ⟨rfl, _, _, _, rfl, rfl, rfl⟩

theorem EncodedBytes.rshft (ra rb : RegIndex) : EncodedBytes.Statement (.rshft ra rb) :=
  ⟨rfl, _, _, _, rfl, rfl, rfl⟩

theorem EncodedBytes.not (ra : RegIndex) : EncodedBytes.Statement (.not ra) :=
  ⟨rfl, _, _, _, rfl, rfl, rfl⟩

theorem EncodedBytes.jr (rs : RegIndex) : EncodedBytes.Statement (.jr rs) :=
  ⟨rfl, _, _, _, rfl, rfl, rfl⟩

theorem EncodedBytes.ji (imm : Word) : EncodedBytes.Statement (.ji imm) :=
  ⟨rfl, _, _, _, rfl, rfl, rfl⟩

theorem EncodedBytes.beq (imm : Word) : EncodedBytes.Statement (.beq imm) :=
  ⟨rfl, _, _, _, rfl, rfl, rfl⟩

theorem EncodedBytes.bne (imm : Word) : EncodedBytes.Statement (.bne imm) :=
  ⟨rfl, _, _, _, rfl, rfl, rfl⟩

theorem EncodedBytes.blt (imm : Word) : EncodedBytes.Statement (.blt imm) :=
  ⟨rfl, _, _, _, rfl, rfl, rfl⟩

theorem EncodedBytes.ble (imm : Word) : EncodedBytes.Statement (.ble imm) :=
  ⟨rfl, _, _, _, rfl, rfl, rfl⟩

theorem EncodedBytes.bgt (imm : Word) : EncodedBytes.Statement (.bgt imm) :=
  ⟨rfl, _, _, _, rfl, rfl, rfl⟩

theorem EncodedBytes.bge (imm : Word) : EncodedBytes.Statement (.bge imm) :=
  ⟨rfl, _, _, _, rfl, rfl, rfl⟩

theorem EncodedBytes.hlt : EncodedBytes.Statement (.hlt) :=
  ⟨rfl, _, _, _, rfl, rfl, rfl⟩

end Sys2Proof.Laws
end

