-- ==== Sys2Proof/Laws/Step.lean ====
section
/-! SUPPORT. What a step can do, and what every instruction keeps: a relation that survives the writes an instruction can
make survives every instruction and every step. -/

namespace Sys2Proof.Machine

/-- A running machine's step: the fetched instruction is performed, or the fault its fetch raised is taken. -/
theorem step_cases {s t : State} (h : step s = .next t) :
    s.rs = .running ∧
      ((∃ i u, fetchInstr s = .ok i u ∧ exec i u = .next t) ∨ ∃ c u, fetchInstr s = .error c u ∧ t = takeFault c u) := by
  unfold step at h
  cases hr : s.rs with
  | halted => rw [hr] at h; cases h
  | faulted c => rw [hr] at h; cases h
  | running =>
    rw [hr] at h
    cases hf : fetchInstr s with
    | ok i u => rw [hf] at h; exact ⟨rfl, .inl ⟨i, u, rfl, h⟩⟩
    | error c u => rw [hf] at h; cases h; exact ⟨rfl, .inr ⟨c, u, rfl, rfl⟩⟩

theorem step_of_fetched {s u : State} {i : Instr} (hr : s.rs = .running) (h : fetchInstr s = .ok i u) :
    step s = exec i u := by simp [step, hr, h]

theorem step_of_fetch_fault {s u : State} {c : Fault} (hr : s.rs = .running) (h : fetchInstr s = .error c u) :
    step s = .next (takeFault c u) := by simp [step, hr, h]

/-- The writes an instruction or a fetch can make, each kept by a relation between states. -/
structure Frame (P : State → State → Prop) : Prop where
  refl : ∀ s, P s s
  trans : ∀ s t u, P s t → P t u → P s u
  reg : ∀ s r w, P s (s.setReg r w)
  flags : ∀ s f, P s (s.setFlags f)
  rs : ∀ s r, P s (s.setRs r)
  gp : ∀ s a w, a + 1 < s.cfg.gpSize → P s (s.setSeg .gp (s.gp.setWord a w))
  stack : ∀ s a w, a + 1 < s.cfg.stackSize → P s (s.setSeg .stack (s.stack.setWord a w))

namespace Frame

variable {P : State → State → Prop} (F : Frame P)
include F

theorem bind {α β : Type} {m : Micro α} {f : α → Micro β} (hm : Keeps P m) (hf : ∀ a, Keeps P (f a)) :
    Keeps P (m >>= f) := keeps_bind F.trans hm hf

theorem pure {α : Type} (a : α) : Keeps P (pure a : Micro α) := keeps_of_ok fun s => ⟨a, s, rfl, F.refl s⟩

theorem fault (c : Fault) (s t : State) (h : P s t) : P s (takeFault c t) := F.trans _ _ _ h (F.rs t _)

theorem readNamed (r : Reg) : Keeps P (readNamed r) := keeps_of_ok fun s => ⟨_, s, rfl, F.refl s⟩

theorem writeNamed (r : Reg) (w : Word) : Keeps P (writeNamed r w) := keeps_of_ok fun s => ⟨_, _, rfl, F.reg s r w⟩

theorem requestHalt : Keeps P requestHalt := keeps_of_ok fun s => ⟨_, _, rfl, F.rs s _⟩

theorem readReg (n : RegIndex) : Keeps P (readReg n) := by
  intro s
  cases h : Reg.ofIndex n with
  | none => rw [readReg_of_none h]; simp [F.refl s]
  | some r => rw [readReg_of_some h]; simp [F.refl s]

theorem writeReg (n : RegIndex) (w : Word) : Keeps P (writeReg n w) := by
  intro s
  cases h : Reg.ofIndex n with
  | none => rw [writeReg_of_none h]; simp [F.refl s]
  | some r => rw [writeReg_of_some h]; simp [F.reg s r w]

theorem readGp (a : Nat) : Keeps P (memReadWord .gp a) := by
  intro s
  rw [memReadWord_eq]
  split <;> simp [F.refl s]

theorem writeGp (a : Nat) (w : Word) : Keeps P (memWriteWord .gp a w) := by
  intro s
  rw [memWriteWord_eq]
  split <;> rename_i h
  · simpa using F.gp s a w h
  · simp [F.refl s]

theorem fetch : Keeps P fetch := by
  intro s
  rw [fetch_eq]
  split <;> simp [F.refl s, F.reg s]

theorem fetchWord : Keeps P fetchWord := by
  intro s
  rw [fetchWord_eq]
  split <;> simp [F.refl s, F.reg s]

theorem push (v : Word) : Keeps P (push v) := by
  intro s
  rw [push_eq]
  split <;> rename_i h
  · simpa using F.trans _ _ _ (F.stack s _ v h) (F.reg _ .sp _)
  · simp [F.refl s]

theorem pop : Keeps P pop := by
  intro s
  rw [pop_eq]
  split <;> simp [F.reg s]

theorem compute (op : AluOp) (a b : Word) : Keeps P (compute op a b) := by
  intro s
  cases h : rawResult op a b with
  | ok raw => rw [compute_of_ok h]; simp [F.flags s]
  | error c => rw [compute_of_error h]; simp [F.flags s]

theorem alu2 (op : AluOp) (ra rb : RegIndex) : Keeps P (alu2 op ra rb) :=
  F.bind (F.readReg ra) fun a => F.bind (F.readReg rb) fun b => F.bind (F.compute op a b) fun _ => F.writeNamed .ac _

theorem alu1 (op : AluOp) (ra : RegIndex) : Keeps P (alu1 op ra) :=
  F.bind (F.readReg ra) fun a => F.bind (F.compute op a 0) fun _ => F.writeNamed .ac _

theorem branch (cond : Flags → Bool) (imm : Word) : Keeps P (branch cond imm) := by
  refine keeps_of_ok fun s => ⟨(), _, rfl, ?_⟩
  split
  · exact F.reg s .ip imm
  · exact F.refl s

theorem fetchOperands (sh : Shape) : Keeps P (fetchOperands sh) := by
  cases sh with
  | n i => exact F.pure i
  | r f => exact F.bind F.fetch fun _ => F.pure _
  | rr f => exact F.bind F.fetch fun _ => F.bind F.fetch fun _ => F.pure _
  | i f => exact F.bind F.fetchWord fun _ => F.pure _

theorem fetchInstr : Keeps P fetchInstr := by
  refine F.bind F.fetch fun op => ?_
  cases h : opcodeShape op with
  | none => intro s; simp [F.refl s]
  | some sh => exact F.fetchOperands sh

/-- Every instruction keeps the relation. -/
theorem exec {i : Instr} {s t : State} (h : exec i s = .next t) : P s t := by
  cases i with
  | lw rd rs => exact keeps_perform F.fault (F.bind (F.readReg rs) fun a => F.bind (F.readGp _) fun v => F.writeReg rd v) h
  | sw rs rd => exact keeps_perform F.fault (F.bind (F.readReg rs) fun v => F.bind (F.readReg rd) fun a => F.writeGp _ v) h
  | swp ra rb =>
    exact keeps_perform F.fault (F.bind (F.readReg ra) fun a => F.bind (F.push a) fun _ => F.bind (F.readReg rb) fun b =>
      F.bind (F.push b) fun _ => F.bind F.pop fun x => F.bind (F.writeReg ra x) fun _ => F.bind F.pop fun y =>
      F.writeReg rb y) h
  | psh rs => exact keeps_perform F.fault (F.bind (F.readReg rs) fun v => F.push v) h
  | pshi imm => exact keeps_perform F.fault (F.push imm) h
  | pop rd => exact keeps_perform F.fault (F.bind F.pop fun v => F.writeReg rd v) h
  | jali imm => exact keeps_perform F.fault (F.pure ()) h
  | jal rs => exact keeps_perform F.fault (F.pure ()) h
  | ret => exact keeps_perform F.fault (F.pure ()) h
  | add ra rb => exact keeps_perform F.fault (F.alu2 _ ra rb) h
  | sub ra rb => exact keeps_perform F.fault (F.alu2 _ ra rb) h
  | mult ra rb => exact keeps_perform F.fault (F.alu2 _ ra rb) h
  | div ra rb => exact keeps_perform F.fault (F.alu2 _ ra rb) h
  | mod ra rb => exact keeps_perform F.fault (F.alu2 _ ra rb) h
  | and ra rb => exact keeps_perform F.fault (F.alu2 _ ra rb) h
  | or ra rb => exact keeps_perform F.fault (F.alu2 _ ra rb) h
  | xor ra rb => exact keeps_perform F.fault (F.alu2 _ ra rb) h
  | lshft ra rb => exact keeps_perform F.fault (F.alu2 _ ra rb) h
  | rshft ra rb => exact keeps_perform F.fault (F.alu2 _ ra rb) h
  | not ra => exact keeps_perform F.fault (F.alu1 _ ra) h
  | jr rs => exact keeps_perform F.fault (F.bind (F.readReg rs) fun t => F.writeNamed .ip t) h
  | ji imm => exact keeps_perform F.fault (F.writeNamed .ip imm) h
  | beq imm => exact keeps_perform F.fault (F.branch (fun f => f.z) imm) h
  | bne imm => exact keeps_perform F.fault (F.branch (fun f => !f.z) imm) h
  | blt imm => exact keeps_perform F.fault (F.branch (fun f => f.n) imm) h
  | ble imm => exact keeps_perform F.fault (F.branch (fun f => f.n || f.z) imm) h
  | bgt imm => exact keeps_perform F.fault (F.branch (fun f => !f.n) imm) h
  | bge imm => exact keeps_perform F.fault (F.branch (fun f => !f.n || f.z) imm) h
  | hlt => exact keeps_perform F.fault F.requestHalt h

/-- Every step keeps the relation. -/
theorem step {s t : State} (h : step s = .next t) : P s t := by
  obtain ⟨_, ⟨i, u, hf, he⟩ | ⟨c, u, hf, rfl⟩⟩ := step_cases h
  · exact F.trans _ _ _ ((F.fetchInstr s).1 i u hf) (F.exec he)
  · exact F.fault c s u ((F.fetchInstr s).2 c u hf)

end Frame

end Sys2Proof.Machine
end

