-- ==== Sys2Proof/Tests/Slice0.lean ====
section
/-! SUPPORT. The model's own tests. Expected results come from the spec's vectors (spec/95_test_vectors.md E, M, K, L rows;
spec/96_test_vectors_instructions.md LS, MS, CR, AR, LG, CF, HL, F rows), never from the model. -/

namespace Sys2Proof.Tests

open Sys2Proof Sys2Proof.Machine

/-! ### Well-formedness: an ill-formed term for each check, refused -/

theorem test_wf_first_operand_odd : (Instr.add 0x01 0x08).wellFormed = false := by decide
theorem test_wf_second_operand_odd : (Instr.add 0x06 0x09).wellFormed = false := by decide
theorem test_wf_index_past_the_last_register : (Instr.psh 0x1A).wellFormed = false := by decide
theorem test_wf_last_register : (Instr.psh 0x18).wellFormed = true := by decide
theorem test_wf_jal_takes_any_operand : (Instr.jal 0xFF).wellFormed = true := by decide

/-- Every operand that an instruction uses as a register is checked, in both positions. -/
theorem test_wf_each_register_operand_is_checked :
    [Instr.lw 1 0, .lw 0 1, .sw 1 0, .sw 0 1, .swp 1 0, .swp 0 1, .psh 1, .pop 1, .add 1 0, .add 0 1, .sub 1 0, .sub 0 1,
      .mult 1 0, .mult 0 1, .div 1 0, .div 0 1, .mod 1 0, .mod 0 1, .and 1 0, .and 0 1, .or 1 0, .or 0 1, .xor 1 0, .xor 0 1,
      .lshft 1 0, .lshft 0 1, .rshft 1 0, .rshft 0 1, .not 1, .jr 1].all (fun i => !i.wellFormed) = true := by decide

/-! ### Decoding: one word of every constructor, written out from the spec's encodings -/

/-- E1. -/
theorem test_decode_lw : decode [0x01, 0x06, 0x08] = .ok (.lw 0x06 0x08, []) := by decide

/-- E2. -/
theorem test_decode_sw : decode [0x02, 0x0A, 0x0C] = .ok (.sw 0x0A 0x0C, []) := by decide

/-- E3. -/
theorem test_decode_swp : decode [0x03, 0x0E, 0x10] = .ok (.swp 0x0E 0x10, []) := by decide

/-- E4. -/
theorem test_decode_psh : decode [0x04, 0x12] = .ok (.psh 0x12, []) := by decide

/-- E5. -/
theorem test_decode_pshi : decode [0x05, 0x01, 0x12] = .ok (.pshi 0x0112, []) := by decide

/-- E6. -/
theorem test_decode_pop : decode [0x06, 0x14] = .ok (.pop 0x14, []) := by decide

/-- E7. -/
theorem test_decode_jali : decode [0x07, 0x00, 0x20] = .ok (.jali 0x0020, []) := by decide

/-- E8. -/
theorem test_decode_jal : decode [0x08, 0x02] = .ok (.jal 0x02, []) := by decide

/-- E9. -/
theorem test_decode_ret : decode [0x09] = .ok (.ret, []) := by decide

/-- E10. -/
theorem test_decode_add : decode [0x0A, 0x06, 0x08] = .ok (.add 0x06 0x08, []) := by decide

/-- E11. -/
theorem test_decode_sub : decode [0x0B, 0x04, 0x18] = .ok (.sub 0x04 0x18, []) := by decide

/-- E12. -/
theorem test_decode_mult : decode [0x0C, 0x08, 0x08] = .ok (.mult 0x08 0x08, []) := by decide

/-- E13. -/
theorem test_decode_div : decode [0x0D, 0x14, 0x06] = .ok (.div 0x14 0x06, []) := by decide

/-- E14. -/
theorem test_decode_mod : decode [0x0E, 0x0A, 0x16] = .ok (.mod 0x0A 0x16, []) := by decide

/-- E15. -/
theorem test_decode_and : decode [0x0F, 0x06, 0x08] = .ok (.and 0x06 0x08, []) := by decide

/-- E16. -/
theorem test_decode_or : decode [0x10, 0x0C, 0x0C] = .ok (.or 0x0C 0x0C, []) := by decide

/-- E17. -/
theorem test_decode_xor : decode [0x11, 0x10, 0x0E] = .ok (.xor 0x10 0x0E, []) := by decide

/-- E18. -/
theorem test_decode_lshft : decode [0x12, 0x06, 0x08] = .ok (.lshft 0x06 0x08, []) := by decide

/-- E19. -/
theorem test_decode_rshft : decode [0x13, 0x08, 0x06] = .ok (.rshft 0x08 0x06, []) := by decide

/-- E20. -/
theorem test_decode_not : decode [0x14, 0x04] = .ok (.not 0x04, []) := by decide

/-- E21. -/
theorem test_decode_jr : decode [0x15, 0x02] = .ok (.jr 0x02, []) := by decide

/-- E22. -/
theorem test_decode_ji : decode [0x16, 0x0F, 0xFF] = .ok (.ji 0x0FFF, []) := by decide

/-- E23. -/
theorem test_decode_beq : decode [0x17, 0x00, 0x16] = .ok (.beq 0x0016, []) := by decide

/-- E24. -/
theorem test_decode_bne : decode [0x18, 0x00, 0x14] = .ok (.bne 0x0014, []) := by decide

/-- E25. -/
theorem test_decode_blt : decode [0x19, 0x00, 0x00] = .ok (.blt 0x0000, []) := by decide

/-- E26. -/
theorem test_decode_ble : decode [0x1A, 0xFF, 0xFF] = .ok (.ble 0xFFFF, []) := by decide

/-- E27. -/
theorem test_decode_bgt : decode [0x1B, 0x01, 0x00] = .ok (.bgt 0x0100, []) := by decide

/-- E28. -/
theorem test_decode_bge : decode [0x1C, 0x80, 0x00] = .ok (.bge 0x8000, []) := by decide

/-- E29. -/
theorem test_decode_hlt : decode [0x1D] = .ok (.hlt, []) := by decide

/-- E30. -/
theorem test_decode_00_is_unknown : decode [0x00] = .error (.unknownInstruction 0x00) := by decide

/-- E31. -/
theorem test_decode_1e_is_unknown : decode [0x1E] = .error (.unknownInstruction 0x1E) := by decide

/-- E32. -/
theorem test_decode_ff_is_unknown : decode [0xFF] = .error (.unknownInstruction 0xFF) := by decide

/-- E33: `MOV r1,0x0004` as expanded. -/
theorem test_decode_mov : movExpansion 0x06 4 = [.pshi 4, .pop 0x06] ∧
    decode [0x05, 0x00, 0x04, 0x06, 0x06] = .ok (.pshi 4, [0x06, 0x06]) := by decide

/-- An instruction cut short is no instruction. -/
theorem test_decode_truncated : decode [0x16, 0x00] = .error .truncated := by decide

/-- The opcode table's numbering: a 24-bit row, a 16-bit row, an 8-bit row. -/
theorem test_decode_table_words : decodeTableWord 24 0x0A0608 = some (.add 0x06 0x08) ∧
    decodeTableWord 16 0x0412 = some (.psh 0x12) ∧ decodeTableWord 8 0x1D = some .hlt ∧ decodeTableWord 8 0x1E = none := by
  decide

/-- The register names and the mnemonics (R21, R91, R92). -/
theorem test_register_names : getRegisterIndex "sp" = some 0x16 ∧ getRegisterIndex "r9" = none ∧
    (Instr.lshft 0 0).mnemonic = "LSHFT" := by decide

/-! ### One step, from the default state of spec/96_test_vectors_instructions.md -/

/-- The state with several registers written. -/
def withRegs (l : List (Reg × Word)) (s : State) : State := l.foldl (fun s p => s.setReg p.1 p.2) s

/-- The state with bytes written to a segment from an address up. -/
def withBytes (g : Seg) (a : Nat) : List Byte → State → State
  | [], s => s
  | b :: bs, s => withBytes g (a + 1) bs (s.setSeg g ((s.seg g).set a b))

/-- The state with its flags written: `Z`, `N`, `V` in this order. -/
def withFlags (f : Flags) (s : State) : State := s.setFlags f

/-- The state with its run state written. -/
def withRs (r : RunState) (s : State) : State := s.setRs r

/-- The default state: the bytes at `PROG[0x0010..]`, `ip` = 0x0010, flags false, the rest as after reset. -/
def start (bytes : List Byte) : State :=
  withBytes .prog 0x10 bytes ((State.reset.setReg .ip 0x10).setFlags { z := false, n := false, v := false })

/-- What a step answers when it is a next state. -/
def next (o : Answer) : Option State :=
  match o with
  | .next t => some t
  | _ => none

/-- The operation answers, and its value and state satisfy a test. -/
def answers {α : Type} (m : Micro α) (s : State) (p : α → State → Bool) : Bool :=
  match m s with
  | .ok a t => p a t
  | .error _ _ => false

/-- The operation raises, and its cause and state satisfy a test. -/
def raises {α : Type} (m : Micro α) (s : State) (p : Fault → State → Bool) : Bool :=
  match m s with
  | .ok _ _ => false
  | .error c t => p c t

/-- One step from `s` ends in the state the vector describes as a change of `s`. -/
def endsIn (s : State) (f : State → State) : Bool := decide (next (step s) = some (f s))

/-- LS3. -/
theorem test_lw_loads_big_endian_at_the_last_word :
    endsIn (start [0x01, 0x06, 0x08] |> withRegs [(.r2, 0x0FFE)] |> withBytes .gp 0x0FFE [0xBE, 0xEF])
      (fun s => s |> withRegs [(.ip, 0x0013), (.r1, 0xBEEF)]) =
        true := by decide

/-- LS6. -/
theorem test_lw_into_its_own_address_register :
    endsIn (start [0x01, 0x06, 0x06] |> withRegs [(.r1, 0x0100)] |> withBytes .gp 0x0100 [0x00, 0x2A])
      (fun s => s |> withRegs [(.ip, 0x0013), (.r1, 0x002A)]) =
        true := by decide

/-- LS9. -/
theorem test_sw_stores_at_the_address_in_the_second_operand :
    endsIn (start [0x02, 0x06, 0x08] |> withRegs [(.r1, 0xBEEF), (.r2, 0x0200)])
      (fun s => s |> withRegs [(.ip, 0x0013)] |> withBytes .gp 0x0200 [0xBE, 0xEF]) =
        true := by decide

/-- LS10. -/
theorem test_sw_straddling_the_end_writes_nothing :
    endsIn (start [0x02, 0x06, 0x08] |> withRegs [(.r1, 0xBEEF), (.r2, 0x0FFF)])
      (fun s => s |> withRegs [(.ip, 0x0013)] |> withRs (.faulted (.addressOutOfBounds .gp 0x1000))) =
        true := by decide

/-- MS1. -/
theorem test_swp_exchanges :
    endsIn (start [0x03, 0x06, 0x08] |> withRegs [(.r1, 0x1111), (.r2, 0x2222)])
      (fun s => s |> withRegs [(.ip, 0x0013), (.r1, 0x2222), (.r2, 0x1111)]
          |> withBytes .stack 0x03FC [0x22, 0x22, 0x11, 0x11]) =
        true := by decide

/-- MS5. -/
theorem test_swp_at_the_lower_clamp :
    endsIn (start [0x03, 0x06, 0x08] |> withRegs [(.r1, 0x1111), (.r2, 0x2222), (.sp, 0x0000)]
        |> withBytes .stack 0x0002 [0x77, 0x66, 0x99, 0x88])
      (fun s => s |> withRegs [(.ip, 0x0013), (.r1, 0x7766), (.r2, 0x9988), (.sp, 0x0004)]
          |> withBytes .stack 0x0000 [0x22, 0x22]) =
        true := by decide

/-- MS8. -/
theorem test_psh_sp_pushes_the_value_before_the_push :
    endsIn (start [0x04, 0x16])
      (fun s => s |> withRegs [(.ip, 0x0012), (.sp, 0x03FC)] |> withBytes .stack 0x03FE [0x03, 0xFE]) =
        true := by decide

/-- MS19. -/
theorem test_psh_with_a_bad_index :
    endsIn (start [0x04, 0x1A])
      (fun s => s |> withRegs [(.ip, 0x0012)] |> withRs (.faulted (.registerIndexNotFound 0x1A))) =
        true := by decide

/-- MS12. -/
theorem test_pshi_pushes_its_immediate :
    endsIn (start [0x05, 0xFF, 0xFF] |> withRegs [(.sp, 0x0200)])
      (fun s => s |> withRegs [(.ip, 0x0013), (.sp, 0x01FE)] |> withBytes .stack 0x0200 [0xFF, 0xFF]) =
        true := by decide

/-- MS13. -/
theorem test_pshi_above_the_stack :
    endsIn (start [0x05, 0x01, 0x12] |> withRegs [(.sp, 0x03FF)])
      (fun s => s |> withRegs [(.ip, 0x0013)] |> withRs (.faulted (.addressOutOfBounds .stack 0x400))) =
        true := by decide

/-- MS16. -/
theorem test_pop_sp_takes_the_popped_word :
    endsIn (start [0x06, 0x16] |> withRegs [(.sp, 0x03FC)] |> withBytes .stack 0x03FE [0x01, 0x00])
      (fun s => s |> withRegs [(.ip, 0x0012), (.sp, 0x0100)]) =
        true := by decide

/-- MS18. -/
theorem test_pop_with_a_bad_index_has_moved_sp :
    endsIn (start [0x06, 0x05] |> withRegs [(.sp, 0x03FC)] |> withBytes .stack 0x03FE [0x01, 0x12])
      (fun s => s |> withRegs [(.ip, 0x0012), (.sp, 0x03FE)] |> withRs (.faulted (.registerIndexNotFound 0x05))) =
        true := by decide

/-- CR1. -/
theorem test_jali_moves_ip_only :
    endsIn (start [0x07, 0x00, 0x20] |> withRegs [(.lr, 0x1234)])
      (fun s => s |> withRegs [(.ip, 0x0013)]) =
        true := by decide

/-- CR3. -/
theorem test_jal_does_not_check_its_operand :
    endsIn (start [0x08, 0xFF])
      (fun s => s |> withRegs [(.ip, 0x0012)]) =
        true := by decide

/-- CR4. -/
theorem test_ret_moves_ip_only :
    endsIn (start [0x09] |> withRegs [(.lr, 0x0040), (.sp, 0x03FC)] |> withBytes .stack 0x03FE [0x00, 0x40])
      (fun s => s |> withRegs [(.ip, 0x0011)]) =
        true := by decide

/-- AR2. -/
theorem test_add_follows_the_raw_sum :
    endsIn (start [0x0A, 0x06, 0x08] |> withRegs [(.r1, 0x7FFF), (.r2, 0x0001)])
      (fun s => s |> withRegs [(.ip, 0x0013), (.ac, 0x8000)]) =
        true := by decide

/-- AR3. -/
theorem test_add_overflow :
    endsIn (start [0x0A, 0x06, 0x08] |> withRegs [(.r1, 0x8000), (.r2, 0x8000), (.ac, 0x1234)])
      (fun s => s |> withRegs [(.ip, 0x0013), (.ac, 0x0000)] |> withFlags ⟨false, true, true⟩) =
        true := by decide

/-- AR7. -/
theorem test_sub_rewrites_all_flags :
    endsIn (start [0x0B, 0x06, 0x08] |> withRegs [(.r1, 0x0005), (.r2, 0x0005)] |> withFlags ⟨false, true, true⟩)
      (fun s => s |> withRegs [(.ip, 0x0013)] |> withFlags ⟨true, false, false⟩) =
        true := by decide

/-- AR8. -/
theorem test_sub_is_first_minus_second :
    endsIn (start [0x0B, 0x06, 0x08] |> withRegs [(.r1, 0x0005), (.r2, 0x0006)])
      (fun s => s |> withRegs [(.ip, 0x0013), (.ac, 0xFFFF)] |> withFlags ⟨false, true, false⟩) =
        true := by decide

/-- AR10. -/
theorem test_mult_overflow :
    endsIn (start [0x0C, 0x06, 0x08] |> withRegs [(.r1, 0x0100), (.r2, 0x0100)])
      (fun s => s |> withRegs [(.ip, 0x0013)] |> withFlags ⟨false, false, true⟩) =
        true := by decide

/-- AR11. -/
theorem test_mult_is_signed :
    endsIn (start [0x0C, 0x06, 0x08] |> withRegs [(.r1, 0xFFFF), (.r2, 0x0002)])
      (fun s => s |> withRegs [(.ip, 0x0013), (.ac, 0xFFFE)] |> withFlags ⟨false, true, false⟩) =
        true := by decide

/-- AR13. -/
theorem test_div_rounds_down :
    endsIn (start [0x0D, 0x06, 0x08] |> withRegs [(.r1, 0xFFF9), (.r2, 0x0002)])
      (fun s => s |> withRegs [(.ip, 0x0013), (.ac, 0xFFFC)] |> withFlags ⟨false, true, false⟩) =
        true := by decide

/-- AR15. -/
theorem test_div_by_zero_leaves_the_reset_flags :
    endsIn (start [0x0D, 0x06, 0x08] |> withRegs [(.r1, 0x0007), (.ac, 0x1234)] |> withFlags ⟨false, true, true⟩)
      (fun s => s |> withRegs [(.ip, 0x0013)] |> withFlags ⟨true, false, false⟩ |> withRs (.faulted .divideByZero)) =
        true := by decide

/-- AR18. -/
theorem test_mod_takes_the_divisors_sign :
    endsIn (start [0x0E, 0x06, 0x08] |> withRegs [(.r1, 0x0007), (.r2, 0xFFFE)])
      (fun s => s |> withRegs [(.ip, 0x0013), (.ac, 0xFFFF)] |> withFlags ⟨false, true, false⟩) =
        true := by decide

/-- AR19. -/
theorem test_mod_by_zero :
    endsIn (start [0x0E, 0x06, 0x08] |> withRegs [(.r1, 0x0007), (.ac, 0x1234)] |> withFlags ⟨false, true, false⟩)
      (fun s => s |> withRegs [(.ip, 0x0013)] |> withFlags ⟨true, false, false⟩ |> withRs (.faulted .moduloByZero)) =
        true := by decide

/-- LG1. -/
theorem test_and :
    endsIn (start [0x0F, 0x06, 0x08] |> withRegs [(.r1, 0xF0F0), (.r2, 0x0FF0)])
      (fun s => s |> withRegs [(.ip, 0x0013), (.ac, 0x00F0)]) =
        true := by decide

/-- LG3. -/
theorem test_or :
    endsIn (start [0x10, 0x06, 0x08] |> withRegs [(.r1, 0xF0F0), (.r2, 0x0FF0)])
      (fun s => s |> withRegs [(.ip, 0x0013), (.ac, 0xFFF0)] |> withFlags ⟨false, true, false⟩) =
        true := by decide

/-- LG5. -/
theorem test_xor :
    endsIn (start [0x11, 0x06, 0x08] |> withRegs [(.r1, 0xF0F0), (.r2, 0x0FF0)])
      (fun s => s |> withRegs [(.ip, 0x0013), (.ac, 0xFF00)] |> withFlags ⟨false, true, false⟩) =
        true := by decide

/-- LG8. -/
theorem test_lshft_past_the_word :
    endsIn (start [0x12, 0x06, 0x08] |> withRegs [(.r1, 0x0001), (.r2, 0x0010)])
      (fun s => s |> withRegs [(.ip, 0x0013)] |> withFlags ⟨false, false, true⟩) =
        true := by decide

/-- LG10. -/
theorem test_lshft_by_a_negative_count :
    endsIn (start [0x12, 0x06, 0x08] |> withRegs [(.r1, 0x0001), (.r2, 0xFFFF), (.ac, 0x1234)]
        |> withFlags ⟨false, true, true⟩)
      (fun s => s |> withRegs [(.ip, 0x0013)] |> withFlags ⟨true, false, false⟩
          |> withRs (.faulted .shiftCountNegative)) =
        true := by decide

/-- LG12. -/
theorem test_rshft_propagates_the_sign :
    endsIn (start [0x13, 0x06, 0x08] |> withRegs [(.r1, 0x8000), (.r2, 0x0001)])
      (fun s => s |> withRegs [(.ip, 0x0013), (.ac, 0xC000)] |> withFlags ⟨false, true, false⟩) =
        true := by decide

/-- LG15. -/
theorem test_rshft_by_a_negative_count :
    endsIn (start [0x13, 0x06, 0x08] |> withRegs [(.r1, 0x0001), (.r2, 0x8000)])
      (fun s => s |> withRegs [(.ip, 0x0013)] |> withFlags ⟨true, false, false⟩
          |> withRs (.faulted .shiftCountNegative)) =
        true := by decide

/-- LG16. -/
theorem test_not_writes_ac_not_its_operand :
    endsIn (start [0x14, 0x06] |> withRegs [(.r1, 0x00FF)])
      (fun s => s |> withRegs [(.ip, 0x0012), (.ac, 0xFF00)] |> withFlags ⟨false, true, false⟩) =
        true := by decide

/-- CF2. -/
theorem test_jr_ip_is_the_next_instruction :
    endsIn (start [0x15, 0x00])
      (fun s => s |> withRegs [(.ip, 0x0012)]) =
        true := by decide

/-- CF3. -/
theorem test_jr_does_not_check_its_target :
    endsIn (start [0x15, 0x06] |> withRegs [(.r1, 0xFFFF)])
      (fun s => s |> withRegs [(.ip, 0xFFFF)]) =
        true := by decide

/-- CF4. -/
theorem test_ji :
    endsIn (start [0x16, 0x00, 0x20])
      (fun s => s |> withRegs [(.ip, 0x0020)]) =
        true := by decide

/-- CF7. -/
theorem test_beq_taken :
    endsIn (start [0x17, 0x00, 0x20] |> withFlags ⟨true, false, false⟩)
      (fun s => s |> withRegs [(.ip, 0x0020)]) =
        true := by decide

/-- CF8. -/
theorem test_beq_not_taken :
    endsIn (start [0x17, 0x00, 0x20] |> withFlags ⟨false, true, false⟩)
      (fun s => s |> withRegs [(.ip, 0x0013)]) =
        true := by decide

/-- CF9. -/
theorem test_bne_taken :
    endsIn (start [0x18, 0x00, 0x20])
      (fun s => s |> withRegs [(.ip, 0x0020)]) =
        true := by decide

/-- CF10. -/
theorem test_bne_not_taken :
    endsIn (start [0x18, 0x00, 0x20] |> withFlags ⟨true, false, false⟩)
      (fun s => s |> withRegs [(.ip, 0x0013)]) =
        true := by decide

/-- CF11. -/
theorem test_blt_taken :
    endsIn (start [0x19, 0x00, 0x20] |> withFlags ⟨false, true, false⟩)
      (fun s => s |> withRegs [(.ip, 0x0020)]) =
        true := by decide

/-- CF12. -/
theorem test_blt_not_taken :
    endsIn (start [0x19, 0x00, 0x20] |> withFlags ⟨true, false, false⟩)
      (fun s => s |> withRegs [(.ip, 0x0013)]) =
        true := by decide

/-- CF13. -/
theorem test_ble_taken_on_zero :
    endsIn (start [0x1A, 0x00, 0x20] |> withFlags ⟨true, false, false⟩)
      (fun s => s |> withRegs [(.ip, 0x0020)]) =
        true := by decide

/-- CF14. -/
theorem test_ble_ignores_overflow :
    endsIn (start [0x1A, 0x00, 0x20] |> withFlags ⟨false, false, true⟩)
      (fun s => s |> withRegs [(.ip, 0x0013)]) =
        true := by decide

/-- CF15. -/
theorem test_bgt_taken_on_zero :
    endsIn (start [0x1B, 0x00, 0x20] |> withFlags ⟨true, false, false⟩)
      (fun s => s |> withRegs [(.ip, 0x0020)]) =
        true := by decide

/-- CF20. -/
theorem test_bgt_not_taken_on_zero_and_negative :
    endsIn (start [0x1B, 0x00, 0x20] |> withFlags ⟨true, true, false⟩)
      (fun s => s |> withRegs [(.ip, 0x0013)]) =
        true := by decide

/-- CF18. -/
theorem test_bge_not_taken :
    endsIn (start [0x1C, 0x00, 0x20] |> withFlags ⟨false, true, false⟩)
      (fun s => s |> withRegs [(.ip, 0x0013)]) =
        true := by decide

/-- CF19. -/
theorem test_bge_taken_on_zero_and_negative :
    endsIn (start [0x1C, 0x00, 0x20] |> withFlags ⟨true, true, false⟩)
      (fun s => s |> withRegs [(.ip, 0x0020)]) =
        true := by decide

/-- HL2. -/
theorem test_hlt_halts :
    endsIn (start [0x1D] |> withRegs [(.ac, 0x1234)] |> withFlags ⟨true, false, true⟩)
      (fun s => s |> withRegs [(.ip, 0x0011)] |> withRs .halted) =
        true := by decide

/-- F2. -/
theorem test_illegal_opcode :
    endsIn (start [0x1E])
      (fun s => s |> withRegs [(.ip, 0x0011)] |> withRs (.faulted (.unknownInstruction 0x1E))) =
        true := by decide

/-- F16. -/
theorem test_immediate_fetch_faults_as_a_whole :
    endsIn (start [0x00] |> withRegs [(.ip, 0x0FFE)] |> withBytes .prog 0x0FFE [0x16, 0x00])
      (fun s => s |> withRegs [(.ip, 0x0FFF)] |> withRs (.faulted (.addressOutOfBounds .prog 0x1000))) =
        true := by decide

/-- M2, M9, M10: the last word address, and a word that straddles the end. -/
theorem test_memory_word_bounds :
    answers (memWriteWord .gp 0x0FFE 0xBEEF) (start []) (fun _ t => t.gp = [(0xFFE, 0xBE), (0xFFF, 0xEF)]) = true ∧
    raises (memReadWord .gp 0x0FFF) (start []) (fun c _ => c = .addressOutOfBounds .gp 0x1000) = true ∧
    raises (memWriteWord .gp 0x0FFF 0xAABB) (start []) (fun c t => c = .addressOutOfBounds .gp 0x1000 ∧ t.gp = []) =
      true := by decide

/-- M4, M5: a value outside the word range is truncated. -/
theorem test_u16 : u16 (-1) = 0xFFFF ∧ u16 0x12345 = 0x2345 := by decide

/-- K4: at the lower clamp the value pushed is lost. -/
theorem test_push_then_pop_at_the_lower_clamp :
    answers (push 0xBEEF >>= fun _ => pop) (start [] |> withRegs [(.sp, 0)] |> withBytes .stack 2 [0x11, 0x22])
      (fun w t => w = 0x1122 ∧ t.reg .sp = 2) = true := by decide

/-- K7: `sp` = 1 wraps, and the pop faults. -/
theorem test_push_then_pop_at_sp_1 :
    raises (push 0xBEEF >>= fun _ => pop) (start [] |> withRegs [(.sp, 1)])
      (fun c t => c = .addressOutOfBounds .stack 0xFFFF ∧ t.reg .sp = 0xFFFF) = true := by decide

/-- A CPU whose machine is in a state and whose lifecycle is in a phase. -/
def inPhase (p : Phase) (s : State) : Session := { core := s, labels := [], phase := p }

/-- A host operation is refused for a reason. -/
def refusedWith (r : HostRefusal) (a : Except HostRefusal Session) : Bool :=
  match a with
  | .ok _ => false
  | .error r' => decide (r' = r)

/-- L1 (source example S6): `main` at 0 and `helper` at 6. -/
theorem test_load_two_functions :
    loadProgram [("main", [1, 2, 3, 4, 5]), ("helper", [6, 7, 8])] 8 (inPhase .constructed (start [])) =
      .loaded { core := (start []).setSeg .prog [(0, 1), (1, 2), (2, 3), (3, 4), (4, 5), (6, 6), (7, 7), (8, 8)],
                labels := [("main", 0), ("helper", 6)], phase := .loaded } := by decide

/-- R276: a second load and a load after the run are refused, for an empty program too. -/
theorem test_load_twice_or_late :
    loadProgram [] 0 (inPhase .loaded (start [])) = .refused .secondOrLateLoad ∧
    loadProgram [] 0 (inPhase .started (start [])) = .refused .secondOrLateLoad := by decide

/-- U10: a load with a false byte count is refused. -/
theorem test_load_false_count :
    loadProgram [("main", [1])] 2 (inPhase .constructed (start [])) = .refused .falseByteCount := by decide

/-- R273: a load that fails writes nothing, and the core is not run after it. -/
theorem test_load_too_large :
    loadProgram [("main", [1])] 4095 (inPhase .constructed (start [])) =
      .programTooLarge (inPhase .loadFailed (start [])) ∧
    refusedWith .loadHasFailed (inPhase .loadFailed (start [0x1D])).step = true := by decide

/-- U9: an odd stack size is refused. -/
theorem test_construct_odd_stack :
    refusedWith .badConfiguration (Session.construct { Config.cfg0 with stackSize := 1023 }) = true := by decide

/-- The instruction `withFetchWord` places is the first that runs after reset (the flags, which reset leaves unspecified, at
one of their values). -/
theorem test_fetch_word_runs_after_reset :
    endsIn ((State.reset |> withFlags ⟨false, false, false⟩).withFetchWord 24 0x160020)
      (fun s => s |> withRegs [(.ip, 0x20)]) = true := by decide

/-- With nothing loaded, the first step after reset raises `UnknownInstruction(0x00)` (R89, R39). -/
theorem test_reset_with_nothing_loaded :
    endsIn (State.reset |> withFlags ⟨true, true, true⟩)
      (fun s => s |> withRegs [(.ip, 1)] |> withRs (.faulted (.unknownInstruction 0))) = true := by decide

/-! ### Witnesses: a state and operands that meet the hypotheses of each statement, at the bounds of their ranges -/

/-- The smallest configuration within the constraints of R6. -/
def cfgMin : Config := { gpSize := 2, progSize := 2, stackSize := 2, ioSize := 1, dispSize := 1 }

/-- The largest one. -/
def cfgMax : Config :=
  { gpSize := 65536, progSize := 65536, stackSize := 65536, ioSize := 65536, dispSize := 65536 }

/-- The default state with `sp` at a value. -/
def atSp (sp : Word) : State := start [] |> withRegs [(.r1, 0x1111), (.r2, 0x2222), (.sp, sp)]

theorem witness_DecodedBytesAreTheInstructionsEncoding : decode [0x1D, 0x00] = .ok (.hlt, [0x00]) := by decide

theorem witness_LengthDependsOnTheOpcodeByteAlone :
    decode [0x01, 0x06, 0x08] = .ok (.lw 0x06 0x08, []) ∧
    decode [0x01, 0xFF, 0x00, 0x1D] = .ok (.lw 0xFF 0x00, [0x1D]) := by decide

/-- Bytes 0x00, 0x1E and 0xFF, the last at the last address of `PROG`. -/
theorem witness_IllegalOpcodesRaiseUnknownInstruction :
    [start [0x00], start [0x1E], start [] |> withRegs [(.ip, 0x0FFF)] |> withBytes .prog 0x0FFF [0xFF]].all (fun s =>
      decide (s.rs = .running) && decide ((s.reg .ip).toNat < s.cfg.progSize) &&
      (decide ((s.prog.get (s.reg .ip).toNat).toNat = 0) || decide (0x1E ≤ (s.prog.get (s.reg .ip).toNat).toNat))) =
        true := by decide

/-- One instruction of each format that ends at the last byte of `PROG`. -/
theorem witness_StepPerformsTheDecodedInstruction :
    [(0x0FFF, [0x1D], Instr.hlt), (0x0FFE, [0x04, 0x06], .psh 0x06), (0x0FFD, [0x01, 0x06, 0x08], .lw 0x06 0x08),
      (0x0FFD, [0x16, 0x12, 0x34], .ji 0x1234)].all (fun (a, bytes, i) =>
        let s := start [] |> withRegs [(.ip, BitVec.ofNat 16 a)] |> withBytes .prog a bytes
        decide (s.rs = .running) && decide (s.cfg.progSize ≤ 65536) && s.fetchFits i.format &&
        (match decode s.window with
          | .ok (j, _) => decide (j = i)
          | .error _ => false)) = true := by decide

/-- Past the end, an operand byte outside, an immediate's second byte outside (F13, F15, F16). -/
theorem witness_FetchOutsideProgFaults :
    (start [] |> withRegs [(.ip, 0x1000)]).fetchFits .n = false ∧
    (start [] |> withRegs [(.ip, 0x0FFF)] |> withBytes .prog 0x0FFF [0x04]).fetchFits .r = false ∧
    (opcodeShape 0x04).map Shape.format = some .r ∧
    (start [] |> withRegs [(.ip, 0x0FFE)] |> withBytes .prog 0x0FFE [0x16]).fetchFits .i = false ∧
    (opcodeShape 0x16).map Shape.format = some .i := by decide

theorem witness_RunningMachineAlwaysAnswersANextState : State.reset.rs = .running := by decide

theorem witness_StoppedMachineTakesNoStep :
    (start [] |> withRs .halted).rs ≠ .running ∧ (start []
        |> withRs (.faulted .divideByZero)).rs ≠ .running := by decide

theorem witness_OnlyHltEndsARunSuccessfully :
    (next (step (start [0x1D]))).map (fun t => t.rs) = some .halted := by decide

theorem witness_RunTakesItsStepsAndStopsForGood :
    (start [0x09, 0x1D]).rs = .running ∧ (next (step (start [0x09, 0x1D]))).isSome = true ∧
    (run 2 (start [0x09, 0x1D])).rs ≠ .running ∧ 2 ≤ 5 := by decide

theorem witness_TakingAFaultWritesOnlyTheRunState :
    (raise .divideByZero : Micro Unit) (start []) = .error .divideByZero (start []) ∧
    (start [0x00]).rs = .running ∧
    raises fetchInstr (start [0x00]) (fun c _ => c = .unknownInstruction 0x00) = true ∧
    raises fetchInstr (start [] |> withRegs [(.ip, 0x0FFF)] |> withBytes .prog 0x0FFF [0x04])
      (fun c t => c = .addressOutOfBounds .prog 0x1000 ∧ t.reg .ip = 0x1000) = true := by
  refine ⟨rfl, ?_, ?_, ?_⟩ <;> decide

/-- The premise of `ResetValues` and of `InvariantHoldsAtReset`: the reference configuration and both extremes. -/
theorem witness_configurations : Config.cfg0.ok = true ∧ cfgMin.ok = true ∧ cfgMax.ok = true := by decide

/-- A load that leaves exactly the two unused bytes R273 speaks of, with a last function; and one of no function. -/
theorem witness_LoadPlacesEveryFunctionAtItsOffset :
    (inPhase .constructed (State.construct { cfgMin with progSize := 7 })).phase = .constructed ∧
    (State.construct { cfgMin with progSize := 7 }).prog = [] ∧
    trueByteCount [("main", [1, 2]), ("helper", [3, 4])] + 2 < 7 ∧
    [("main", [(1 : Byte), 2]), ("helper", [3, 4])][1]? = some ("helper", [3, 4]) ∧
    trueByteCount [] + 0 < 2 := by decide

/-- Both sides of the bound, with the true count and with a false one. -/
theorem witness_LoadFailsExactlyWhenTooLarge :
    (inPhase .constructed (start [])).phase = .constructed ∧ (start []).cfg.progSize ≤ 4095 + 1 ∧
    4094 + 1 < (start []).cfg.progSize ∧ 4094 ≠ trueByteCount [("main", [])] ∧ 0 = trueByteCount [("main", [])] := by decide

/-- Each phase, a load that succeeds, one that fails at the bound, a running machine and a stopped one. -/
theorem witness_LoadIsOnceAndBeforeTheRun :
    (inPhase .loaded (start [])).phase ≠ .constructed ∧ (inPhase .loadFailed (start [])).phase = .loadFailed ∧
    (inPhase .loaded (start [])).phase ≠ .loadFailed ∧
    loadProgram [("main", [])] 0 (inPhase .constructed (start [])) =
      .loaded { core := start [], labels := [("main", 0)], phase := .loaded } ∧
    loadProgram [("main", [])] 4095 (inPhase .constructed (start [])) =
      .programTooLarge (inPhase .loadFailed (start [])) ∧
    (next (step (start [0x09]))).isSome = true ∧ (start [] |> withRs .halted).rs ≠ .running := by decide

/-- The last byte, one past it, the last word, the word that straddles the end. -/
theorem witness_SegmentAccessesCheckEveryByteFirst :
    0x0FFF < segCap Config.cfg0 .gp ∧ segCap Config.cfg0 .gp ≤ 0x1000 ∧ 0x0FFE + 1 < segCap Config.cfg0 .gp ∧
    0x0FFF + 1 = segCap Config.cfg0 .gp := by decide

theorem witness_WordWriteReadsBack : 0x0FFE + 1 < segCap (start []).cfg .gp ∧ 0 + 1 < segCap cfgMin .stack := by decide

/-- Also the witness of `NoStepWritesProgIoDispOrTheConfiguration`. -/
theorem witness_EveryStepKeepsTheInvariant :
    (start [0x04, 0x16]).inv = true ∧ (next (step (start [0x04, 0x16]))).isSome = true := by decide

theorem witness_SegmentsAreWrittenByTheirInstructionsAlone :
    (next (exec (.pop 0x06) (atSp 4))).isSome = true ∧ (∀ a b, Instr.pop 0x06 ≠ .sw a b) ∧
    (∀ a, Instr.pop 0x06 ≠ .psh a) := by
  refine ⟨by decide, ?_, ?_⟩ <;> intros <;> simp

/-- A register that no operand and no implicit write names: `r3`, and `sp` under `ADD`. -/
theorem witness_RegistersAreWrittenOnlyAsTheSpecLists :
    (next (exec (.add 0x06 0x08) (atSp 4))).isSome = true ∧ (Instr.add 0x06 0x08).destinations = [] ∧
    (next (exec (.lw 0x06 0x08) (start []))).isSome = true ∧ (Instr.lw 0x06 0x08).destinations = [0x06] ∧
    Reg.ofIndex 0x06 ≠ some .sp := by decide

theorem witness_FlagsAreWrittenByAluInstructionsAlone :
    (Instr.psh 0x06).callsAlu = false ∧ (next (exec (.psh 0x06) (atSp 4))).isSome = true := by decide

theorem witness_AluInstructionsOverwriteAllFlagsAndReadNone :
    (Instr.div 0x06 0x18).callsAlu = true ∧ (Instr.div 0x06 0x18).wellFormed = true := by decide

/-- A zero, a negative and a positive raw result. -/
theorem witness_ZeroExcludesNegativeAndOverflow :
    [(0x0005, 0x0005, (0 : Int)), (0x0005, 0x0006, -1), (0x7FFF, 0x8000, 65535)].all (fun (a, b, raw) =>
      match compute .sub a b (start []) with
      | .ok r _ => decide (r = raw)
      | .error _ _ => false) = true := by decide

theorem witness_ComputeRaisesExactlyOnZeroDivisorAndNegativeCount :
    0x8000 ≤ (0x8000 : Word).toNat ∧ 0x8000 ≤ (0xFFFF : Word).toNat ∧ ¬ 0x8000 ≤ (0x7FFF : Word).toNat := by decide

/-- Two register operands with the address register at the last word of `GP`; and the same register twice, at 0. -/
theorem witness_LwLoadsTheWordAtTheAddressInRs :
    Reg.ofIndex 0x06 = some .r1 ∧ Reg.ofIndex 0x08 = some .r2 ∧ Reg.ofIndex 0x00 = some .ip ∧
    ((start [] |> withRegs [(.r2, 0x0FFE)]).reg .r2).toNat + 1 < (start []).cfg.gpSize ∧
    ((start []).reg .r1).toNat + 1 < (start []).cfg.gpSize := by decide

theorem witness_SwStoresTheWordAtTheAddressInRd :
    Reg.ofIndex 0x06 = some .r1 ∧ Reg.ofIndex 0x08 = some .r2 ∧
    ((start [] |> withRegs [(.r2, 0x0FFE)]).reg .r2).toNat + 1 < (start []).cfg.gpSize := by decide

/-- A bad index (odd, and past the last register), a good one, and the two sides of the last word address. -/
theorem witness_LwAndSwFaults :
    Reg.ofIndex 0x07 = none ∧ Reg.ofIndex 0x1A = none ∧ Reg.ofIndex 0x08 = some .r2 ∧
    (start []).cfg.gpSize ≤ ((start [] |> withRegs [(.r2, 0x0FFF)]).reg .r2).toNat + 1 ∧
    (start []).cfg.gpSize ≤ ((start [] |> withRegs [(.r2, 0xFFFF)]).reg .r2).toNat + 1 ∧
    ((start [] |> withRegs [(.r2, 0x0FFE)]).reg .r2).toNat + 1 < (start []).cfg.gpSize := by decide

/-- `sp` at 0, at `SP_MAX` and one above it: the ranges of the push clauses, of `PSH`, `PSHI` and their faults. -/
theorem witness_PushWritesThenMovesSp :
    ((atSp 0).reg .sp).toNat + 1 < (atSp 0).cfg.stackSize ∧
    ((atSp 0x03FE).reg .sp).toNat + 1 < (atSp 0x03FE).cfg.stackSize ∧
    (atSp 0x03FF).cfg.stackSize ≤ ((atSp 0x03FF).reg .sp).toNat + 1 := by decide

/-- Where `sp` goes at 0x03FC, at `SP_MAX`, at `SP_MAX - 1` and above the stack, and whether a word is there: the ranges of
the pop clauses, of `POP` and its faults. -/
theorem witness_PopMovesSpThenReads :
    spForPop Config.cfg0 0x03FC = 0x03FE ∧ spForPop Config.cfg0 0x03FE = 0x03FE ∧
    (0x03FE : Word).toNat + 1 < Config.cfg0.stackSize ∧
    spForPop Config.cfg0 0x03FD = 0x03FF ∧ Config.cfg0.stackSize ≤ (0x03FF : Word).toNat + 1 ∧
    spForPop Config.cfg0 0xFFFF = 0xFFFF ∧ Config.cfg0.stackSize ≤ (0xFFFF : Word).toNat + 1 := by decide

theorem witness_PopAfterPushGivesTheValueBackExactlyInRange :
    (atSp 2).cfg.ok = true ∧ 2 ≤ (atSp 2).cfg.spMax ∧ { cfgMin with stackSize := 4 }.ok = true ∧
    2 ≤ { cfgMin with stackSize := 4 }.spMax := by decide

theorem witness_PshAndPshiPushTheirOperand :
    Reg.ofIndex 0x16 = some .sp ∧ ((atSp 0x03FE).reg .sp).toNat + 1 < (atSp 0x03FE).cfg.stackSize := by decide

theorem witness_PopLoadsTheWordAtTheMovedSp :
    Reg.ofIndex 0x16 = some .sp ∧ Reg.ofIndex 0x06 = some .r1 ∧
    (0x03FE : Word) = (if ((atSp 0x03FC).reg .sp).toNat < (atSp 0x03FC).cfg.stackSize - 2
      then (atSp 0x03FC).reg .sp + 2 else (atSp 0x03FC).reg .sp) ∧
    (0x03FE : Word).toNat + 1 < (atSp 0x03FC).cfg.stackSize := by decide

theorem witness_StackInstructionFaults :
    Reg.ofIndex 0x1A = none ∧ Reg.ofIndex 0x06 = some .r1 ∧
    (atSp 0x03FF).cfg.stackSize ≤ ((atSp 0x03FF).reg .sp).toNat + 1 ∧
    (0x03FF : Word) = (if ((atSp 0x03FD).reg .sp).toNat < (atSp 0x03FD).cfg.stackSize - 2
      then (atSp 0x03FD).reg .sp + 2 else (atSp 0x03FD).reg .sp) ∧
    (atSp 0x03FD).cfg.stackSize ≤ (0x03FF : Word).toNat + 1 ∧
    (0x03FE : Word).toNat + 1 < (atSp 0x03FC).cfg.stackSize := by decide

/-- `sp` at the two ends of the range, two different registers, the same one twice, and `ip`. -/
theorem witness_SwpExchangesTheRegisters :
    Reg.ofIndex 0x06 = some .r1 ∧ Reg.ofIndex 0x08 = some .r2 ∧ Reg.ofIndex 0x00 = some .ip ∧
    4 ≤ ((atSp 4).reg .sp).toNat ∧ ((atSp 4).reg .sp).toNat ≤ (atSp 4).cfg.spMax ∧
    4 ≤ ((atSp 0x03FE).reg .sp).toNat ∧ ((atSp 0x03FE).reg .sp).toNat ≤ (atSp 0x03FE).cfg.spMax := by decide

theorem witness_SwpWithAnOperandNamingSp :
    Reg.ofIndex 0x16 = some .sp ∧ Reg.ofIndex 0x06 = some .r1 ∧ Reg.r1 ≠ .sp ∧
    4 ≤ ((atSp 4).reg .sp).toNat ∧ ((atSp 0x03FE).reg .sp).toNat ≤ (atSp 0x03FE).cfg.spMax := by decide

theorem witness_SwpAtTheLowerClampDoesNotExchange :
    Reg.ofIndex 0x06 = some .r1 ∧ Reg.ofIndex 0x08 = some .r2 ∧ Reg.r1 ≠ .sp ∧ Reg.r2 ≠ .sp ∧
    4 ≤ (atSp 2).cfg.spMax ∧ (atSp 2).reg .sp = 2 ∧ (atSp 0).reg .sp = 0 := by decide

theorem witness_SwpFaults :
    Reg.ofIndex 0x01 = none ∧ Reg.ofIndex 0x06 = some .r1 ∧ Reg.ofIndex 0x08 = some .r2 ∧
    (atSp 0x03FF).cfg.stackSize ≤ ((atSp 0x03FF).reg .sp).toNat + 1 ∧
    ((atSp 0x03FE).reg .sp).toNat + 1 < (atSp 0x03FE).cfg.stackSize ∧
    (atSp 1).cfg.ok = true ∧ (atSp 1).reg .sp = 1 ∧ (atSp 3).reg .sp = 3 := by decide

theorem witness_MovExpansionAndRegisterCopy :
    Reg.ofIndex 0x06 = some .r1 ∧ Reg.r1 ≠ .sp ∧ (atSp 2).cfg.ok = true ∧
    2 ≤ ((atSp 2).reg .sp).toNat ∧ ((atSp 0x03FE).reg .sp).toNat ≤ (atSp 0x03FE).cfg.spMax ∧
    (atSp 0).reg .sp = 0 ∧ 2 ≤ (atSp 0).cfg.spMax ∧ (atSp 1).reg .sp = 1 ∧ 1 ≤ (atSp 1).cfg.spMax ∧
    (atSp 0x03FF).cfg.spMax < ((atSp 0x03FF).reg .sp).toNat := by decide

theorem witness_SpStaysEvenAndInRange :
    (atSp 0).cfg.ok = true ∧ (atSp 0).spOk = true ∧ (Instr.psh 0x06).destinations = [] ∧
    (next (exec (.psh 0x06) (atSp 0))).isSome = true := by decide

/-- The hypotheses of `AddResultAndFlags` to `NotResultAndFlags`, of `ArithmeticFaults` and of
`BranchesAfterSubCompareSignedOperands`: register operands, a divisor, the largest count. -/
theorem witness_alu_operands :
    Reg.ofIndex 0x06 = some .r1 ∧ Reg.ofIndex 0x08 = some .r2 ∧ Reg.ofIndex 0x18 = some .fp ∧
    (start []).rs = .running ∧ (atSp 4).reg .r2 ≠ 0 ∧
    ((start [] |> withRegs [(.r2, 0x7FFF)]).reg .r2).toNat < 0x8000 := by decide

theorem witness_AluInstructionsRejectBadIndicesInOperandOrder :
    Reg.ofIndex 0x01 = none ∧ Reg.ofIndex 0x19 = none ∧ Reg.ofIndex 0x06 = some .r1 := by decide

theorem witness_JumpsSetIpAndNothingElse : Reg.ofIndex 0x00 = some .ip ∧ Reg.ofIndex 0x03 = none := by decide

/-- A branch whose last byte is the last byte of `PROG`. -/
theorem witness_BranchesTestTheirFlags :
    let s := start [] |> withRegs [(.ip, 0x0FFD)] |> withBytes .prog 0x0FFD [0x1C, 0x80, 0x01]
    (0x8001 : Word).toNat = (0x80 : Byte).toNat * 256 + (0x01 : Byte).toNat ∧ s.rs = .running ∧
    s.window = [0x1C, 0x80, 0x01] ∧ (s.reg .ip).toNat + 2 < s.cfg.progSize ∧ s.cfg.progSize ≤ 65536 := by decide

theorem witness_HltHaltsAndChangesNothingElse :
    let s := start [] |> withRegs [(.ip, 0x0FFF)] |> withBytes .prog 0x0FFF [0x1D]
    s.rs = .running ∧ (s.reg .ip).toNat < s.cfg.progSize ∧ s.prog.get (s.reg .ip).toNat = 0x1D := by decide

end Sys2Proof.Tests
end

/-! Proofs of the statements of spec/10_state.md. First the facts about register indices, reset, `run` and `compute`, each
with the statements it settles; then one table of the parts of the state that each instruction may write, from which the
statements about registers, flags and segments are read off. -/

namespace Sys2Proof.Machine

/-! ### Register indices -/

/-- An operand byte names a register exactly when it is that register's index (R21, R25). -/
theorem Reg.ofIndex_eq_some_iff (n : RegIndex) (r : Reg) : Reg.ofIndex n = some r ↔ n = r.index := by
  constructor
  · exact Reg.index_of_ofIndex
  · rintro rfl
    exact Reg.ofIndex_index r

theorem validIndex_iff (n : RegIndex) : validIndex n = true ↔ n.toNat % 2 = 0 ∧ n.toNat ≤ 24 := by
  unfold validIndex Reg.ofIndex
  split
  case h_14 =>
    simp only [imp_false] at *
    simp only [Option.isSome_none, Bool.false_eq_true, false_iff]
    omega
  -- each of the thirteen rows fixes `n.toNat`
  all_goals simp_all

/-- Settles O5. -/
theorem registerIndicesAreTheEvenOffsetsUpTo24 : Obligations.RegisterIndicesAreTheEvenOffsetsUpTo24 :=
  ⟨validIndex_iff, Reg.ofIndex_eq_some_iff, rfl, rfl, rfl, rfl, rfl, rfl, rfl, rfl, rfl, rfl, rfl, rfl, rfl⟩

/-! ### Reset -/

/-- The constraints R6 puts on the stack's capacity. -/
theorem Config.stackSize_of_ok {c : Config} (h : c.ok = true) :
    2 ≤ c.stackSize ∧ c.stackSize ≤ 65536 ∧ c.stackSize % 2 = 0 := by
  simp only [Config.ok, Bool.and_eq_true, decide_eq_true_eq] at h
  omega

@[simp] theorem construct_cfg (c : Config) : (State.construct c).cfg = c := rfl

@[simp] theorem construct_seg (c : Config) (g : Seg) : (State.construct c).seg g = [] := by cases g <;> rfl

theorem construct_reg_of_ne_sp (c : Config) {r : Reg} (h : r ≠ .sp) : (State.construct c).reg r = 0 := by
  cases r with
  | sp => exact absurd rfl h
  | _ => rfl

/-- `SP_MAX` fits a register, so the reset value of `sp` is not truncated (R6, R39). -/
theorem toNat_construct_sp {c : Config} (h : c.ok = true) : ((State.construct c).reg .sp).toNat = c.spMax := by
  obtain ⟨_, hle, _⟩ := Config.stackSize_of_ok h
  have hlt : c.spMax < 2 ^ 16 := by unfold Config.spMax; omega
  exact Nat.mod_eq_of_lt hlt

theorem construct_inv {c : Config} (h : c.ok = true) : (State.construct c).inv = true := by
  have hseg (g : Seg) : segOk (State.construct c) g = true := by
    unfold segOk
    rw [construct_wf, construct_seg]
    rfl
  simp [State.inv, hseg, h]

theorem construct_spOk {c : Config} (h : c.ok = true) : (State.construct c).spOk = true := by
  obtain ⟨_, _, heven⟩ := Config.stackSize_of_ok h
  simp only [State.spOk, toNat_construct_sp h, construct_cfg, Bool.and_eq_true, decide_eq_true_eq, Config.spMax]
  omega

theorem Config.cfg0_ok : Config.cfg0.ok = true := by decide

/-- Settles O14. -/
theorem resetValues : Obligations.ResetValues := by
  refine ⟨fun c hc => ⟨fun r => construct_reg_of_ne_sp c, toNat_construct_sp hc, rfl, fun g a => ?_, rfl⟩, rfl, ?_⟩
  · rw [construct_seg, Memory.get_nil]
  · exact toNat_construct_sp Config.cfg0_ok

/-- Settles O20: `State.reset` is the construction with `CFG0`, which is legal. -/
theorem invariantHoldsAtReset : Obligations.InvariantHoldsAtReset :=
  ⟨construct_inv Config.cfg0_ok, construct_spOk Config.cfg0_ok, fun _ hc => ⟨construct_inv hc, construct_spOk hc⟩⟩

/-! ### Step and run -/

/-- Every instruction answers a next state: each arm of `exec` performs its micro-operations, none is refused. -/
theorem exec_total (i : Instr) (s : State) : ∃ t, exec i s = .next t := by
  cases i <;>
    simp only [exec, execLw, execSw, execSwp, execPsh, execPshi, execPop, execJali, execJal, execRet, execAdd, execSub,
      execMult, execDiv, execMod, execAnd, execOr, execXor, execLshft, execRshft, execNot, execJr, execJi, execBeq,
      execBne, execBlt, execBle, execBgt, execBge, execHlt] <;>
    exact perform_total _ s

/-- A running machine's step answers a next state. -/
theorem step_total_of_running {s : State} (h : s.rs = .running) : ∃ t, step s = .next t := by
  cases hf : fetchInstr s with
  | ok i u => rw [step_of_fetched h hf]; exact exec_total i u
  | error c u => exact ⟨_, step_of_fetch_fault h hf⟩

/-- Only a running machine steps (R31). -/
theorem step_ne_next_of_stopped {s : State} (h : s.rs ≠ .running) (t : State) : step s ≠ .next t :=
  fun hs => h (step_cases hs).1

theorem continues_iff (s : State) : continues s = true ↔ s.rs = .running := decide_eq_true_iff

@[simp] theorem run_zero (s : State) : run 0 s = s := rfl

theorem run_succ_of_next {s t : State} (hr : s.rs = .running) (hs : step s = .next t) (k : Nat) :
    run (k + 1) s = run k t := by
  rw [run, if_pos ((continues_iff s).mpr hr), hs]

theorem run_of_stopped {s : State} (h : s.rs ≠ .running) (k : Nat) : run k s = s := by
  cases k with
  | zero => rfl
  | succ k => rw [run, if_neg fun hc => h ((continues_iff s).mp hc)]

/-- More fuel than a run needs to stop changes nothing. -/
theorem run_eq_of_le {s : State} {k m : Nat} (h : (run k s).rs ≠ .running) (hkm : k ≤ m) : run m s = run k s := by
  induction k generalizing s m with
  | zero => exact run_of_stopped h m
  | succ k ih =>
    by_cases hr : s.rs = .running
    · obtain ⟨t, hs⟩ := step_total_of_running hr
      obtain ⟨m, rfl⟩ : ∃ m', m = m' + 1 := ⟨m - 1, by omega⟩
      rw [run_succ_of_next hr hs] at h ⊢
      rw [run_succ_of_next hr hs]
      exact ih h (by omega)
    · rw [run_of_stopped hr, run_of_stopped hr]

/-- Settles O10. -/
theorem stoppedMachineTakesNoStep : Obligations.StoppedMachineTakesNoStep :=
  fun _ h => ⟨step_ne_next_of_stopped h, run_of_stopped h⟩

/-- Settles O12. -/
theorem runTakesItsStepsAndStopsForGood : Obligations.RunTakesItsStepsAndStopsForGood :=
  ⟨fun _ _ k hr hs => run_succ_of_next hr hs k, fun _ _ _ => run_eq_of_le⟩

/-! ### The flags of a `compute` that returns -/

theorem compute_eq_ok {op : AluOp} {a b : Word} {s t : State} {raw : Int} (h : compute op a b s = .ok raw t) :
    rawResult op a b = .ok raw ∧ t = s.setFlags (flagsOf raw) := by
  cases hr : rawResult op a b with
  | ok v => rw [compute_of_ok hr] at h; cases h; exact ⟨rfl, rfl⟩
  | error c => rw [compute_of_error hr] at h; cases h

/-- Settles O26: all three flags are read off the one raw result. -/
theorem zeroExcludesNegativeAndOverflow : Obligations.ZeroExcludesNegativeAndOverflow := by
  intro op a b s t raw h
  obtain ⟨-, rfl⟩ := compute_eq_ok h
  simp only [State.setFlags_flags, ← Bool.not_eq_true, flagsOf_z, flagsOf_n, flagsOf_v]
  refine ⟨trivial, trivial, ?_, ?_, ?_⟩ <;> omega

/-! ### What no step writes -/

/-- The parts that no instruction writes are the same: `PROG`, `IO`, `DISP` and the configuration. -/
def SameFixedParts (s t : State) : Prop := t.prog = s.prog ∧ t.io = s.io ∧ t.disp = s.disp ∧ t.cfg = s.cfg

/-- No write that an instruction or a fetch makes touches a fixed part. -/
theorem frame_sameFixedParts : Frame SameFixedParts where
  refl _ := ⟨rfl, rfl, rfl, rfl⟩
  trans := by
    rintro s t u ⟨hprog, hio, hdisp, hcfg⟩ ⟨hprog', hio', hdisp', hcfg'⟩
    exact ⟨hprog'.trans hprog, hio'.trans hio, hdisp'.trans hdisp, hcfg'.trans hcfg⟩
  reg _ _ _ := ⟨rfl, rfl, rfl, rfl⟩
  flags _ _ := ⟨rfl, rfl, rfl, rfl⟩
  rs _ _ := ⟨rfl, rfl, rfl, rfl⟩
  gp _ _ _ _ := ⟨rfl, rfl, rfl, rfl⟩
  stack _ _ _ _ := ⟨rfl, rfl, rfl, rfl⟩

/-- Settles O21. -/
theorem noStepWritesProgIoDispOrTheConfiguration : Obligations.NoStepWritesProgIoDispOrTheConfiguration :=
  fun _ _ h => frame_sameFixedParts.step h

/-! ### The parts an instruction may write -/

/-- A part of the state that an instruction may write, besides the run state: a register, the flags as a unit (R127), the
contents of a segment. -/
inductive StatePart where
  | reg (r : Reg)
  | flags
  | seg (g : Seg)

/-- The part holds the same in both states. -/
def StatePart.Same (s t : State) : StatePart → Prop
  | .reg r => t.reg r = s.reg r
  | .flags => t.flags = s.flags
  | .seg g => t.seg g = s.seg g

/-- The part is the register that an operand byte names. -/
def StatePart.NamedBy (n : RegIndex) (p : StatePart) : Prop := ∃ r, Reg.ofIndex n = some r ∧ p = .reg r

/-- The parts an instruction may write: its destination operands, the implicit writes of R23, the flags of R29, the
segments of R35. `exec_sameOutside` holds `exec` to this table. -/
def MayWrite : Instr → StatePart → Prop
  | .lw rd _, p => p.NamedBy rd
  | .sw _ _, p => p = .seg .gp
  | .swp ra rb, p => p.NamedBy ra ∨ p.NamedBy rb ∨ p = .reg .sp ∨ p = .seg .stack
  | .psh _, p | .pshi _, p => p = .reg .sp ∨ p = .seg .stack
  | .pop rd, p => p.NamedBy rd ∨ p = .reg .sp
  | .add _ _, p | .sub _ _, p | .mult _ _, p | .div _ _, p | .mod _ _, p | .and _ _, p | .or _ _, p | .xor _ _, p
  | .lshft _ _, p | .rshft _ _, p | .not _, p => p = .flags ∨ p = .reg .ac
  | .jr _, p | .ji _, p | .beq _, p | .bne _, p | .blt _, p | .ble _, p | .bgt _, p | .bge _, p => p = .reg .ip
  | .jali _, _ | .jal _, _ | .ret, _ | .hlt, _ => False

/-- Two states agree on every part outside `W`. -/
def SameOutside (W : StatePart → Prop) (s t : State) : Prop := ∀ p, ¬ W p → p.Same s t

section

variable {W : StatePart → Prop}

theorem SameOutside.refl (s : State) : SameOutside W s s := fun p _ => by cases p <;> rfl

theorem SameOutside.trans (s t u : State) (h : SameOutside W s t) (h' : SameOutside W t u) : SameOutside W s u := by
  intro p hp
  have hst := h p hp
  have htu := h' p hp
  cases p <;> exact htu.trans hst

theorem SameOutside.setReg {r : Reg} (hr : W (.reg r)) (s : State) (w : Word) : SameOutside W s (s.setReg r w) := by
  intro p hp
  cases p with
  | reg q =>
    have hne : q ≠ r := by rintro rfl; exact hp hr
    exact State.reg_setReg_of_ne s w hne
  | flags => rfl
  | seg g => exact State.setReg_seg s r w g

theorem SameOutside.setFlags (hf : W .flags) (s : State) (f : Flags) : SameOutside W s (s.setFlags f) := by
  intro p hp
  cases p with
  | reg q => rfl
  | flags => exact absurd hf hp
  | seg g => exact State.setFlags_seg s f g

theorem SameOutside.setSeg {g : Seg} (hg : W (.seg g)) (s : State) (m : Memory) : SameOutside W s (s.setSeg g m) := by
  intro p hp
  cases p with
  | reg q => exact State.setSeg_reg s g m q
  | flags => exact State.setSeg_flags s g m
  | seg g' =>
    have hne : g' ≠ g := by rintro rfl; exact hp hg
    exact State.seg_setSeg_of_ne s m hne

/-- The run state is no part, so a change of it is none of a part. -/
theorem SameOutside.setRs (s : State) (r : RunState) : SameOutside W s (s.setRs r) := by
  intro p _
  cases p with
  | reg q => rfl
  | flags => rfl
  | seg g => exact State.setRs_seg s r g

theorem SameOutside.takeFault (c : Fault) (s t : State) (h : SameOutside W s t) : SameOutside W s (takeFault c t) :=
  SameOutside.trans _ _ _ h (SameOutside.setRs t _)

/-! Each operation keeps what lies outside `W`, once `W` holds the parts that the operation writes. -/

theorem keepsOutside_pure {α : Type} (a : α) : Keeps (SameOutside W) (pure a : Micro α) :=
  keeps_of_ok fun s => ⟨a, s, rfl, SameOutside.refl s⟩

theorem keepsOutside_bind {α β : Type} {m : Micro α} {f : α → Micro β} (hm : Keeps (SameOutside W) m)
    (hf : ∀ a, Keeps (SameOutside W) (f a)) : Keeps (SameOutside W) (m >>= f) := keeps_bind SameOutside.trans hm hf

theorem keepsOutside_requestHalt : Keeps (SameOutside W) requestHalt :=
  keeps_of_ok fun s => ⟨_, _, rfl, SameOutside.setRs s _⟩

theorem keepsOutside_writeNamed {r : Reg} (hr : W (.reg r)) (w : Word) : Keeps (SameOutside W) (writeNamed r w) :=
  keeps_of_ok fun s => ⟨_, _, rfl, SameOutside.setReg hr s w⟩

theorem keepsOutside_branch (hip : W (.reg .ip)) (cond : Flags → Bool) (imm : Word) :
    Keeps (SameOutside W) (branch cond imm) := by
  refine keeps_of_ok fun s => ⟨(), _, rfl, ?_⟩
  split
  · exact SameOutside.setReg hip s imm
  · exact SameOutside.refl s

theorem keepsOutside_readReg (n : RegIndex) : Keeps (SameOutside W) (readReg n) := by
  intro s
  cases h : Reg.ofIndex n with
  | none => rw [readReg_of_none h]; simp [SameOutside.refl]
  | some r => rw [readReg_of_some h]; simp [SameOutside.refl]

theorem keepsOutside_writeReg {n : RegIndex} (hn : ∀ p, StatePart.NamedBy n p → W p) (w : Word) :
    Keeps (SameOutside W) (writeReg n w) := by
  intro s
  cases h : Reg.ofIndex n with
  | none => rw [writeReg_of_none h]; simp [SameOutside.refl]
  | some r => rw [writeReg_of_some h]; simp [SameOutside.setReg (hn _ ⟨r, h, rfl⟩)]

theorem keepsOutside_memReadWord (g : Seg) (a : Nat) : Keeps (SameOutside W) (memReadWord g a) := by
  intro s
  rw [memReadWord_eq]
  split <;> simp [SameOutside.refl]

theorem keepsOutside_memWriteWord {g : Seg} (hg : W (.seg g)) (a : Nat) (w : Word) :
    Keeps (SameOutside W) (memWriteWord g a w) := by
  intro s
  rw [memWriteWord_eq]
  split
  · simp [SameOutside.setSeg hg]
  · simp [SameOutside.refl]

theorem keepsOutside_push (hsp : W (.reg .sp)) (hstack : W (.seg .stack)) (v : Word) :
    Keeps (SameOutside W) (push v) := by
  intro s
  rw [push_eq]
  split
  · simpa using SameOutside.trans _ _ _ (SameOutside.setSeg hstack s _) (SameOutside.setReg hsp _ _)
  · simp [SameOutside.refl]

theorem keepsOutside_pop (hsp : W (.reg .sp)) : Keeps (SameOutside W) pop := by
  intro s
  rw [pop_eq]
  split <;> simp [SameOutside.setReg hsp]

theorem keepsOutside_compute (hf : W .flags) (op : AluOp) (a b : Word) : Keeps (SameOutside W) (compute op a b) := by
  intro s
  cases h : rawResult op a b with
  | ok raw => rw [compute_of_ok h]; simp [SameOutside.setFlags hf]
  | error c => rw [compute_of_error h]; simp [SameOutside.setFlags hf]

theorem keepsOutside_alu2 (hf : W .flags) (hac : W (.reg .ac)) (op : AluOp) (ra rb : RegIndex) :
    Keeps (SameOutside W) (alu2 op ra rb) :=
  keepsOutside_bind (keepsOutside_readReg ra) fun a => keepsOutside_bind (keepsOutside_readReg rb) fun b =>
    keepsOutside_bind (keepsOutside_compute hf op a b) fun _ => keepsOutside_writeNamed hac _

theorem keepsOutside_alu1 (hf : W .flags) (hac : W (.reg .ac)) (op : AluOp) (ra : RegIndex) :
    Keeps (SameOutside W) (alu1 op ra) :=
  keepsOutside_bind (keepsOutside_readReg ra) fun a =>
    keepsOutside_bind (keepsOutside_compute hf op a 0) fun _ => keepsOutside_writeNamed hac _

theorem SameOutside.perform {m : Micro Unit} (hm : Keeps (SameOutside W) m) {s t : State}
    (h : perform m s = .next t) : SameOutside W s t := keeps_perform SameOutside.takeFault hm h

end

/-- An instruction writes no part but those `MayWrite` lists for it, whether it completes or faults. `W` stands for any
set of parts that holds them, so that each arm names the parts its operations need. -/
theorem exec_sameOutside {i : Instr} {W : StatePart → Prop} (hW : ∀ p, MayWrite i p → W p) {s t : State}
    (h : exec i s = .next t) : SameOutside W s t := by
  cases i with
  | lw rd rs =>
    exact SameOutside.perform (keepsOutside_bind (keepsOutside_readReg rs) fun _ =>
      keepsOutside_bind (keepsOutside_memReadWord .gp _) fun v => keepsOutside_writeReg hW v) h
  | sw rs rd =>
    exact SameOutside.perform (keepsOutside_bind (keepsOutside_readReg rs) fun v =>
      keepsOutside_bind (keepsOutside_readReg rd) fun _ => keepsOutside_memWriteWord (hW _ rfl) _ v) h
  | swp ra rb =>
    have hsp : W (.reg .sp) := hW _ (.inr (.inr (.inl rfl)))
    have hstack : W (.seg .stack) := hW _ (.inr (.inr (.inr rfl)))
    exact SameOutside.perform (keepsOutside_bind (keepsOutside_readReg ra) fun a =>
      keepsOutside_bind (keepsOutside_push hsp hstack a) fun _ =>
      keepsOutside_bind (keepsOutside_readReg rb) fun b =>
      keepsOutside_bind (keepsOutside_push hsp hstack b) fun _ =>
      keepsOutside_bind (keepsOutside_pop hsp) fun x =>
      keepsOutside_bind (keepsOutside_writeReg (fun p hp => hW p (.inl hp)) x) fun _ =>
      keepsOutside_bind (keepsOutside_pop hsp) fun y =>
      keepsOutside_writeReg (fun p hp => hW p (.inr (.inl hp))) y) h
  | psh rs =>
    exact SameOutside.perform (keepsOutside_bind (keepsOutside_readReg rs) fun v =>
      keepsOutside_push (hW _ (.inl rfl)) (hW _ (.inr rfl)) v) h
  | pshi imm => exact SameOutside.perform (keepsOutside_push (hW _ (.inl rfl)) (hW _ (.inr rfl)) imm) h
  | pop rd =>
    exact SameOutside.perform (keepsOutside_bind (keepsOutside_pop (hW _ (.inr rfl))) fun v =>
      keepsOutside_writeReg (fun p hp => hW p (.inl hp)) v) h
  | jali _ | jal _ | ret => exact SameOutside.perform (keepsOutside_pure ()) h
  | add ra rb | sub ra rb | mult ra rb | div ra rb | mod ra rb | and ra rb | or ra rb | xor ra rb | lshft ra rb
  | rshft ra rb => exact SameOutside.perform (keepsOutside_alu2 (hW _ (.inl rfl)) (hW _ (.inr rfl)) _ ra rb) h
  | not ra => exact SameOutside.perform (keepsOutside_alu1 (hW _ (.inl rfl)) (hW _ (.inr rfl)) _ ra) h
  | jr rs =>
    exact SameOutside.perform (keepsOutside_bind (keepsOutside_readReg rs) fun v =>
      keepsOutside_writeNamed (hW _ rfl) v) h
  | ji imm => exact SameOutside.perform (keepsOutside_writeNamed (hW _ rfl) imm) h
  | beq imm => exact SameOutside.perform (keepsOutside_branch (hW _ rfl) (fun f => f.z) imm) h
  | bne imm => exact SameOutside.perform (keepsOutside_branch (hW _ rfl) (fun f => !f.z) imm) h
  | blt imm => exact SameOutside.perform (keepsOutside_branch (hW _ rfl) (fun f => f.n) imm) h
  | ble imm => exact SameOutside.perform (keepsOutside_branch (hW _ rfl) (fun f => f.n || f.z) imm) h
  | bgt imm => exact SameOutside.perform (keepsOutside_branch (hW _ rfl) (fun f => !f.n) imm) h
  | bge imm => exact SameOutside.perform (keepsOutside_branch (hW _ rfl) (fun f => !f.n || f.z) imm) h
  | hlt => exact SameOutside.perform keepsOutside_requestHalt h

/-- A part that an instruction may not write holds the same after it. -/
theorem exec_same {i : Instr} {s t : State} (h : exec i s = .next t) {p : StatePart} (hp : ¬ MayWrite i p) :
    p.Same s t :=
  exec_sameOutside (fun _ => id) h p hp

/-! ### The table read by part: which rows of `MayWrite` list it -/

theorem mayWrite_gp {i : Instr} (h : MayWrite i (.seg .gp)) : ∃ a b, i = .sw a b := by
  cases i <;> simp_all [MayWrite, StatePart.NamedBy]

theorem mayWrite_stack {i : Instr} (h : MayWrite i (.seg .stack)) :
    (∃ a, i = .psh a) ∨ (∃ w, i = .pshi w) ∨ ∃ a b, i = .swp a b := by
  cases i <;> simp_all [MayWrite, StatePart.NamedBy]

theorem mayWrite_flags {i : Instr} (h : MayWrite i .flags) : i.callsAlu = true := by
  cases i <;> simp_all [MayWrite, StatePart.NamedBy, Instr.callsAlu]

/-- The jumps and the branches, the writers of `ip` by name (R23). -/
def SetsIp (i : Instr) : Prop :=
  (∃ a, i = .jr a) ∨ (∃ w, i = .ji w) ∨ (∃ w, i = .beq w) ∨ (∃ w, i = .bne w) ∨ (∃ w, i = .blt w) ∨
    (∃ w, i = .ble w) ∨ (∃ w, i = .bgt w) ∨ ∃ w, i = .bge w

/-- The instructions that push or pop, the writers of `sp` by name (R23). -/
def MovesSp (i : Instr) : Prop := (∃ a, i = .psh a) ∨ (∃ w, i = .pshi w) ∨ (∃ a, i = .pop a) ∨ ∃ a b, i = .swp a b

/-- A register that an instruction may write is a destination operand or one of R23's implicit writes. -/
theorem mayWrite_reg {i : Instr} {r : Reg} (h : MayWrite i (.reg r)) :
    (∃ n ∈ i.destinations, Reg.ofIndex n = some r) ∨ (r = .ac ∧ i.callsAlu = true) ∨ (r = .ip ∧ SetsIp i) ∨
      (r = .sp ∧ MovesSp i) := by
  cases i <;> simp_all [MayWrite, StatePart.NamedBy, Instr.destinations, Instr.callsAlu, SetsIp, MovesSp, or_assoc]

/-! ### The statements about registers, flags and segments -/

/-- Settles O22. -/
theorem segmentsAreWrittenByTheirInstructionsAlone : Obligations.SegmentsAreWrittenByTheirInstructionsAlone := by
  intro i s t h
  refine ⟨fun hsw => exec_same h (p := .seg .gp) fun hw => ?_, fun hpsh hpshi hswp =>
    exec_same h (p := .seg .stack) fun hw => ?_⟩
  · obtain ⟨a, b, hi⟩ := mayWrite_gp hw
    exact hsw a b hi
  · obtain ⟨a, hi⟩ | ⟨w, hi⟩ | ⟨a, b, hi⟩ := mayWrite_stack hw
    · exact hpsh a hi
    · exact hpshi w hi
    · exact hswp a b hi

/-- Settles O23. -/
theorem registersAreWrittenOnlyAsTheSpecLists : Obligations.RegistersAreWrittenOnlyAsTheSpecLists := by
  intro i s t r h hdest hac hip hsp
  refine exec_same h (p := .reg r) fun hw => ?_
  obtain ⟨n, hn, hr⟩ | ⟨hr, halu⟩ | ⟨hr, hset⟩ | ⟨hr, hmove⟩ := mayWrite_reg hw
  · exact hdest n hn hr
  · exact absurd halu (Bool.eq_false_iff.mp (hac hr))
  · obtain ⟨hjr, hji, hbeq, hbne, hblt, hble, hbgt, hbge⟩ := hip hr
    simp_all [SetsIp]
  · obtain ⟨hpsh, hpshi, hpop, hswp⟩ := hsp hr
    simp_all [MovesSp]

/-- Settles O24. -/
theorem flagsAreWrittenByAluInstructionsAlone : Obligations.FlagsAreWrittenByAluInstructionsAlone :=
  fun _ _ _ halu h => exec_same h (p := .flags) fun hw => Bool.eq_false_iff.mp halu (mayWrite_flags hw)

end Sys2Proof.Machine

/-! Proofs of the statements of spec/20_memory.md. First the invariant of every step, read off the frame of the step
relation; then the outcome of each segment access by where its bytes lie; then a word written and read back. -/

namespace Sys2Proof.Machine

/-! ### The invariant -/

theorem segOk_iff (s : State) (g : Seg) :
    segOk s g = true ↔ (s.seg g).wf = true ∧ (s.seg g).below (segCap s.cfg g) = true := Bool.and_eq_true_iff

/-- The five conjuncts of the invariant as one statement over the segments. -/
theorem State.inv_iff (s : State) : s.inv = true ↔ s.cfg.ok = true ∧ ∀ g, segOk s g = true := by
  simp only [State.inv, Bool.and_eq_true]
  constructor
  · rintro ⟨⟨⟨⟨⟨hcfg, hgp⟩, hprog⟩, hstack⟩, hio⟩, hdisp⟩
    exact ⟨hcfg, fun | .gp => hgp | .prog => hprog | .stack => hstack | .io => hio | .disp => hdisp⟩
  · rintro ⟨hcfg, hseg⟩
    exact ⟨⟨⟨⟨⟨hcfg, hseg .gp⟩, hseg .prog⟩, hseg .stack⟩, hseg .io⟩, hseg .disp⟩

/-- The invariant speaks of the configuration and the contents of the segments alone. -/
theorem State.inv_of_same {s t : State} (hcfg : t.cfg = s.cfg) (hseg : ∀ g, t.seg g = s.seg g) (h : s.inv = true) :
    t.inv = true := by
  obtain ⟨hok, hsegs⟩ := (State.inv_iff s).mp h
  refine (State.inv_iff t).mpr ⟨hcfg ▸ hok, fun g => ?_⟩
  rw [segOk, hcfg, hseg]
  exact hsegs g

/-- The invariant survives the replacement of one segment by canonical contents within its capacity. -/
theorem State.inv_setSeg {s : State} {g : Seg} {m : Memory} (hwf : m.wf = true)
    (hbelow : m.below (segCap s.cfg g) = true) (h : s.inv = true) : (s.setSeg g m).inv = true := by
  obtain ⟨hok, hsegs⟩ := (State.inv_iff s).mp h
  refine (State.inv_iff _).mpr ⟨by rwa [State.setSeg_cfg], fun g' => ?_⟩
  by_cases hg : g' = g
  · subst hg
    rw [segOk_iff, State.seg_setSeg_self, State.setSeg_cfg]
    exact ⟨hwf, hbelow⟩
  · rw [segOk, State.seg_setSeg_of_ne s m hg, State.setSeg_cfg]
    exact hsegs g'

/-- A word written inside a segment keeps the invariant: this is what the bounds check of R54 and R55 is for. -/
theorem State.inv_setSeg_setWord {s : State} {g : Seg} {a : Nat} (w : Word) (ha : a + 1 < segCap s.cfg g)
    (h : s.inv = true) : (s.setSeg g ((s.seg g).setWord a w)).inv = true := by
  obtain ⟨hwf, hbelow⟩ := (segOk_iff s g).mp (((State.inv_iff s).mp h).2 g)
  exact State.inv_setSeg (Memory.wf_setWord a w hwf) (Memory.below_setWord w hbelow ha) h

/-- The second state satisfies the invariant if the first does. -/
def KeepsInv (s t : State) : Prop := s.inv = true → t.inv = true

/-- Every write that an instruction or a fetch makes keeps the invariant. -/
theorem frame_keepsInv : Frame KeepsInv where
  refl _ := id
  trans _ _ _ h h' := h' ∘ h
  reg s r w := State.inv_of_same rfl (State.setReg_seg s r w)
  flags s f := State.inv_of_same rfl (State.setFlags_seg s f)
  rs s r := State.inv_of_same rfl (State.setRs_seg s r)
  gp _ _ w ha := State.inv_setSeg_setWord (g := .gp) w ha
  stack _ _ w ha := State.inv_setSeg_setWord (g := .stack) w ha

/-- Settles O19. -/
theorem everyStepKeepsTheInvariant : Obligations.EveryStepKeepsTheInvariant :=
  fun _ _ hinv hstep => frame_keepsInv.step hstep hinv

/-! ### Segment accesses -/

section

variable {s : State} {g : Seg} {a : Nat}

theorem memReadByte_of_inside (h : a < segCap s.cfg g) : memReadByte g a s = .ok ((s.seg g).get a) s := by
  rw [memReadByte_eq, if_pos h]

theorem memReadByte_of_outside (h : segCap s.cfg g ≤ a) : memReadByte g a s = .error (.addressOutOfBounds g a) s := by
  rw [memReadByte_eq, if_neg (by omega)]

theorem memWriteByte_of_inside (h : a < segCap s.cfg g) (b : Byte) :
    memWriteByte g a b s = .ok () (s.setSeg g ((s.seg g).set a b)) := by rw [memWriteByte_eq, if_pos h]

theorem memWriteByte_of_outside (h : segCap s.cfg g ≤ a) (b : Byte) :
    memWriteByte g a b s = .error (.addressOutOfBounds g a) s := by rw [memWriteByte_eq, if_neg (by omega)]

theorem memReadWord_of_inside (h : a + 1 < segCap s.cfg g) : memReadWord g a s = .ok ((s.seg g).getWord a) s := by
  rw [memReadWord_eq, if_pos h]

theorem memWriteWord_of_inside (h : a + 1 < segCap s.cfg g) (w : Word) :
    memWriteWord g a w s = .ok () (s.setSeg g ((s.seg g).setWord a w)) := by rw [memWriteWord_eq, if_pos h]

/-- The check of the lower address comes first (R54). -/
theorem firstBadAddress_of_outside (h : segCap s.cfg g ≤ a) : firstBadAddress s g a = a := if_neg (by omega)

/-- A word whose lower byte is the last of the segment fails at its higher address. -/
theorem firstBadAddress_of_straddling (h : a + 1 = segCap s.cfg g) : firstBadAddress s g a = a + 1 := if_pos (by omega)

theorem memReadWord_of_outside (h : segCap s.cfg g ≤ a) : memReadWord g a s = .error (.addressOutOfBounds g a) s := by
  rw [memReadWord_eq, if_neg (by omega), firstBadAddress_of_outside h]

theorem memWriteWord_of_outside (h : segCap s.cfg g ≤ a) (w : Word) :
    memWriteWord g a w s = .error (.addressOutOfBounds g a) s := by
  rw [memWriteWord_eq, if_neg (by omega), firstBadAddress_of_outside h]

theorem memReadWord_of_straddling (h : a + 1 = segCap s.cfg g) :
    memReadWord g a s = .error (.addressOutOfBounds g (a + 1)) s := by
  rw [memReadWord_eq, if_neg (by omega), firstBadAddress_of_straddling h]

theorem memWriteWord_of_straddling (h : a + 1 = segCap s.cfg g) (w : Word) :
    memWriteWord g a w s = .error (.addressOutOfBounds g (a + 1)) s := by
  rw [memWriteWord_eq, if_neg (by omega), firstBadAddress_of_straddling h]

end

/-- A word read is its two bytes, most significant first (R54, R57). -/
theorem Memory.toNat_getWord (m : Memory) (a : Nat) :
    (m.getWord a).toNat = (m.get a).toNat * 256 + (m.get (a + 1)).toNat := toNat_beWord _ _

/-- The two bytes of a word make it up again, as numbers (R57). -/
theorem toNat_eq_high_low (w : Word) : w.toNat = (highByte w).toNat * 256 + (lowByte w).toNat := by
  rw [← toNat_beWord, beWord_high_low]

/-- Settles O17: the cases are by where the two addresses of a word stand to the capacity. -/
theorem segmentAccessesCheckEveryByteFirst : Obligations.SegmentAccessesCheckEveryByteFirst := by
  intro s g a
  refine ⟨fun hin => ⟨memReadByte_of_inside hin, memWriteByte_of_inside hin⟩, fun hout => ?_, fun hin => ?_,
    fun hlast => ?_⟩
  · exact ⟨memReadByte_of_outside hout, memWriteByte_of_outside hout, memReadWord_of_outside hout,
      memWriteWord_of_outside hout⟩
  · exact ⟨⟨_, memReadWord_of_inside hin, Memory.toNat_getWord _ a⟩,
      fun w => ⟨highByte w, lowByte w, toNat_eq_high_low w, memWriteWord_of_inside hin w⟩⟩
  · exact ⟨memReadWord_of_straddling hlast, memWriteWord_of_straddling hlast⟩

/-! ### A word written and read back -/

/-- Truncation to a word is the remainder by 65536, for negative integers too (R9). -/
theorem toNat_u16 (v : Int) : ((u16 v).toNat : Int) = v % 65536 := by
  have hnonneg : 0 ≤ v % 65536 := Int.emod_nonneg v (by decide)
  rw [u16, BitVec.toNat_ofInt]
  exact Int.toNat_of_nonneg hnonneg

@[simp] theorem Memory.get_setWord_high (m : Memory) (a : Nat) (w : Word) : (m.setWord a w).get a = highByte w := by
  rw [Memory.get_setWord, if_pos rfl]

@[simp] theorem Memory.get_setWord_low (m : Memory) (a : Nat) (w : Word) : (m.setWord a w).get (a + 1) = lowByte w := by
  rw [Memory.get_setWord, if_neg (by omega), if_pos rfl]

theorem Memory.get_setWord_of_ne (m : Memory) {a b : Nat} (w : Word) (h : b ≠ a) (h' : b ≠ a + 1) :
    (m.setWord a w).get b = m.get b := by
  rw [Memory.get_setWord, if_neg h, if_neg h']

/-- Settles O18: the state after the write differs in one segment, whose contents are the old ones with the word set. -/
theorem wordWriteReadsBack : Obligations.WordWriteReadsBack := by
  intro s g a v hin
  let t : State := s.setSeg g ((s.seg g).setWord a (u16 v))
  have hin' : a + 1 < segCap t.cfg g := by rwa [State.setSeg_cfg]
  have hseg : t.seg g = (s.seg g).setWord a (u16 v) := State.seg_setSeg_self s g _
  refine ⟨t, memWriteWord_of_inside hin _, ?_, toNat_u16 v, ⟨highByte (u16 v), ?_, toNat_highByte _⟩,
    ⟨lowByte (u16 v), ?_, toNat_lowByte _⟩, fun b hb hb' => ?_, fun _ hne => State.seg_setSeg_of_ne s _ hne,
    State.setSeg_cfg s g _, State.setSeg_regs s g _, State.setSeg_flags s g _, State.setSeg_rs s g _⟩
  · rw [memReadWord_of_inside hin', hseg, Memory.getWord_setWord_self]
  · rw [memReadByte_of_inside (by omega), hseg, Memory.get_setWord_high]
  · rw [memReadByte_of_inside hin', hseg, Memory.get_setWord_low]
  · rw [hseg, Memory.get_setWord_of_ne _ _ hb hb']

end Sys2Proof.Machine

/-! Proofs of the statements of spec/30_encoding.md. A row of the opcode map with its operand bytes makes an instruction;
the decoder and the encoder are each tied to that one relation, and the round trips are read off it. -/

namespace Sys2Proof

open Machine

/-! ### Rows of the opcode map -/

/-- The row `sh` of the opcode map makes the instruction `i` of the operand bytes `operands` (R81, R82, R85). -/
inductive Shape.Makes : Shape → List Byte → Instr → Prop where
  | n (i : Instr) : Makes (.n i) [] i
  | r (f : RegIndex → Instr) (ra : RegIndex) : Makes (.r f) [ra] (f ra)
  | rr (f : RegIndex → RegIndex → Instr) (ra rb : RegIndex) : Makes (.rr f) [ra, rb] (f ra rb)
  | i (f : Word → Instr) (imm : Word) : Makes (.i f) [highByte imm, lowByte imm] (f imm)

/-- Any two bytes are those of an immediate, the big-endian word of them (R85). -/
theorem Shape.Makes.of_two_bytes (f : Word → Instr) (hi lo : Byte) : Shape.Makes (.i f) [hi, lo] (f (beWord hi lo)) := by
  have h := Shape.Makes.i f (beWord hi lo)
  rwa [highByte_beWord, lowByte_beWord] at h

section

variable {op : Byte} {operands bytes rest : List Byte} {sh : Shape} {i : Instr}

/-- The decoder reads the instruction that a row makes, and leaves what follows its operand bytes. -/
theorem decode_of_makes (hop : opcodeShape op = some sh) (h : sh.Makes operands i) :
    decode (op :: (operands ++ rest)) = .ok (i, rest) := by
  cases h with
  | n | r | rr => simp [decode, hop]
  | i => simp [decode, hop, beWord_high_low]

/-- What the decoder reads is made by the row of the first byte. -/
theorem exists_makes_of_decode (h : decode bytes = .ok (i, rest)) :
    ∃ op operands sh, bytes = op :: (operands ++ rest) ∧ opcodeShape op = some sh ∧ sh.Makes operands i := by
  unfold decode at h
  split at h
  · cases h
  next op tail =>
    split at h
    next => cases h
    next i hop => cases h; exact ⟨op, [], _, rfl, hop, .n i⟩
    next f hop =>
      split at h
      next ra rest' => cases h; exact ⟨op, [ra], _, rfl, hop, .r f ra⟩
      next => cases h
    next f hop =>
      split at h
      next ra rb rest' => cases h; exact ⟨op, [ra, rb], _, rfl, hop, .rr f ra rb⟩
      next => cases h
    next f hop =>
      split at h
      next hi lo rest' => cases h; exact ⟨op, [hi, lo], _, rfl, hop, .of_two_bytes f hi lo⟩
      next => cases h

/-- The bytes of an instruction are an opcode byte and operand bytes of which that byte's row makes the instruction. -/
theorem exists_makes_encode (i : Instr) :
    ∃ op operands sh, encode i = op :: operands ∧ opcodeShape op = some sh ∧ sh.Makes operands i := by
  cases i with
  | ret | hlt => exact ⟨_, _, _, rfl, rfl, .n _⟩
  | psh ra | pop ra | jal ra | not ra | jr ra => exact ⟨_, _, _, rfl, rfl, .r _ ra⟩
  | pshi imm | jali imm | ji imm | beq imm | bne imm | blt imm | ble imm | bgt imm | bge imm =>
    exact ⟨_, _, _, rfl, rfl, .i _ imm⟩
  | lw ra rb | sw ra rb | swp ra rb | add ra rb | sub ra rb | mult ra rb | div ra rb | mod ra rb | and ra rb
  | or ra rb | xor ra rb | lshft ra rb | rshft ra rb => exact ⟨_, _, _, rfl, rfl, .rr _ ra rb⟩

/-- Each row of the opcode map stands at the opcode byte that the encoder gives its instructions (R88). -/
theorem encode_of_makes (hop : opcodeShape op = some sh) (h : sh.Makes operands i) : encode i = op :: operands := by
  have hlit : op = BitVec.ofNat 8 op.toNat := by simp
  unfold opcodeShape at hop
  split at hop
  case h_30 => cases hop
  -- each of the 29 rows fixes `op`, and with the row the instruction
  all_goals
    next hnum =>
      cases hop
      rw [hnum] at hlit
      subst hlit
      cases h
      rfl

end

/-! ### The round trips -/

/-- Settles O1. -/
theorem decodeOfEncodeIsTheInstruction : Obligations.DecodeOfEncodeIsTheInstruction := by
  intro i rest
  obtain ⟨op, operands, sh, he, hop, h⟩ := exists_makes_encode i
  rw [he]
  exact decode_of_makes hop h

/-- Settles O2. -/
theorem decodedBytesAreTheInstructionsEncoding : Obligations.DecodedBytesAreTheInstructionsEncoding := by
  intro bytes rest i hd
  obtain ⟨op, operands, sh, rfl, hop, h⟩ := exists_makes_of_decode hd
  rw [encode_of_makes hop h, List.cons_append]

/-! ### The length of an instruction -/

/-- Every encoding is one opcode byte of the instruction's format and that format's operand bytes. -/
theorem encodedBytes (i : Instr) : Laws.EncodedBytes.Statement i := by
  open Laws.EncodedBytes in
  cases i
  exacts [lw _ _, sw _ _, swp _ _, psh _, pshi _, pop _, jali _, jal _, ret, add _ _, sub _ _, mult _ _, div _ _,
    mod _ _, and _ _, or _ _, xor _ _, lshft _ _, rshft _ _, not _, jr _, ji _, beq _, bne _, blt _, ble _, bgt _,
    bge _, hlt]

/-- The first byte of what decodes is of the instruction's format, and the bytes consumed are as many as that format
has. -/
theorem format_and_length_of_decode {op : Byte} {b rest : List Byte} {i : Instr}
    (h : decode (op :: b) = .ok (i, rest)) :
    (opcodeShape op).map Shape.format = some i.format ∧ b.length + 1 = i.format.length + rest.length := by
  have hbytes : op :: b = encode i ++ rest := decodedBytesAreTheInstructionsEncoding _ _ _ h
  obtain ⟨hlen, op', operands, sh, he, hop, hformat⟩ := encodedBytes i
  constructor
  · obtain rfl : op = op' := by
      rw [he, List.cons_append] at hbytes
      exact (List.cons.inj hbytes).1
    rw [hop, Option.map_some, hformat]
  · rw [← hlen, ← List.length_append, ← hbytes, List.length_cons]

/-- Settles O3: both formats are that of the row of the one opcode byte. -/
theorem lengthDependsOnTheOpcodeByteAlone : Obligations.LengthDependsOnTheOpcodeByteAlone := by
  intro op b b' r r' i i' h h'
  obtain ⟨hformat, hlen⟩ := format_and_length_of_decode h
  obtain ⟨hformat', -⟩ := format_and_length_of_decode h'
  exact ⟨Option.some.inj (hformat.symm.trans hformat'), hlen⟩

/-! ### Illegal opcodes -/

/-- The bytes outside the opcode map (R89). -/
theorem opcodeShape_eq_none_iff (op : Byte) : opcodeShape op = none ↔ op.toNat = 0 ∨ 0x1E ≤ op.toNat := by
  unfold opcodeShape
  split
  case h_30 =>
    simp only [imp_false] at *
    simp only [true_iff]
    omega
  -- each of the 29 rows fixes `op.toNat`
  all_goals simp_all

/-- The fetch of an illegal opcode byte moves `ip` past it and raises; no operand byte is fetched (R89). -/
theorem fetchInstr_of_illegal {s : State} (hip : (s.reg .ip).toNat < s.cfg.progSize)
    (hop : opcodeShape (s.prog.get (s.reg .ip).toNat) = none) :
    fetchInstr s =
      .error (.unknownInstruction (s.prog.get (s.reg .ip).toNat)) (s.setReg .ip (s.reg .ip + 1)) := by
  have hfetch : fetch s = .ok (s.prog.get (s.reg .ip).toNat) (s.setReg .ip (s.reg .ip + 1)) := by
    rw [fetch_eq, if_pos hip]
  rw [fetchInstr, bind_of_ok hfetch, hop]
  rfl

/-- Settles O6. -/
theorem illegalOpcodesRaiseUnknownInstruction : Obligations.IllegalOpcodesRaiseUnknownInstruction := by
  refine ⟨opcodeShape_eq_none_iff, fun s hr hip hillegal => ?_⟩
  have hop := (opcodeShape_eq_none_iff _).mpr hillegal
  rw [step_of_fetch_fault hr (fetchInstr_of_illegal hip hop), takeFault_eq]

/-! ### The words of the spec's vectors -/

/-- A word that the encoder gives an instruction decodes to it, with nothing left. -/
theorem decode_of_encode_eq {i : Instr} {bytes : List Byte} (h : encode i = bytes) : decode bytes = .ok (i, []) := by
  rw [← h, ← List.append_nil (encode i)]
  exact decodeOfEncodeIsTheInstruction i []

/-- Settles O4: each word written out from the spec is what the encoder gives its instruction. -/
theorem wordsWrittenOutFromTheSpecDecode : Obligations.WordsWrittenOutFromTheSpecDecode := by
  unfold Obligations.WordsWrittenOutFromTheSpecDecode
  and_intros
  all_goals exact decode_of_encode_eq rfl

end Sys2Proof

/-! Proofs of the statements of spec/40_alu_unit.md, with those of spec/45_arithmetic.md and spec/46_logical.md on
results and flags. Each instruction is its template run on its raw result, so a statement is two facts about that integer:
the word stored of it, and how its flags read. -/

namespace Sys2Proof.Machine

/-! ### When `compute` returns -/

/-- The operators are total but for a zero divisor and a negative count (R113 to R123). -/
theorem rawResult_returns_iff (op : AluOp) (a b : Word) :
    (∃ raw, rawResult op a b = .ok raw) ↔
      ¬ (op = .div ∧ b = 0) ∧ ¬ (op = .rem ∧ b = 0) ∧ ¬ ((op = .lshift ∨ op = .rshift) ∧ 0x8000 ≤ b.toNat) := by
  cases op with
  | add | sub | mul | and | or | xor | not => simp [rawResult]
  | div =>
    obtain rfl | h := eq_or_ne b 0
    · simp only [rawResult_div_zero]
      simp
    · simpa [rawResult_div h] using h
  | rem =>
    obtain rfl | h := eq_or_ne b 0
    · simp only [rawResult_rem_zero]
      simp
    · simpa [rawResult_rem h] using h
  | lshift =>
    obtain h | h := lt_or_ge b.toNat 0x8000
    · simp [h, rawResult_lshift h]
    · simp [h, rawResult_lshift_neg h]
  | rshift =>
    obtain h | h := lt_or_ge b.toNat 0x8000
    · simp [h, rawResult_rshift h]
    · simp [h, rawResult_rshift_neg h]

theorem compute_returns_iff (op : AluOp) (a b : Word) (s : State) :
    (∃ raw t, compute op a b s = .ok raw t) ↔ ∃ raw, rawResult op a b = .ok raw := by
  constructor
  · rintro ⟨raw, t, h⟩
    exact ⟨raw, (compute_eq_ok h).1⟩
  · rintro ⟨raw, h⟩
    exact ⟨raw, _, compute_of_ok h s⟩

/-- Settles O27. -/
theorem computeRaisesExactlyOnZeroDivisorAndNegativeCount :
    Obligations.ComputeRaisesExactlyOnZeroDivisorAndNegativeCount := by
  intro op a b s
  refine ⟨(compute_returns_iff op a b s).trans (rawResult_returns_iff op a b), ?_, ?_, fun h => ⟨?_, ?_⟩⟩
  · rintro rfl
    exact compute_of_error (rawResult_div_zero a) s
  · rintro rfl
    exact compute_of_error (rawResult_rem_zero a) s
  · exact compute_of_error (rawResult_lshift_neg h a) s
  · exact compute_of_error (rawResult_rshift_neg h a) s

/-! ### The flags before an ALU instruction -/

@[simp] theorem State.setFlags_setFlags (s : State) (f g : Flags) : (s.setFlags f).setFlags g = s.setFlags g := rfl

theorem validIndex_iff_names (n : RegIndex) : validIndex n = true ↔ ∃ r, Reg.ofIndex n = some r :=
  Option.isSome_iff_exists

/-- The operands are registers, so the raw result is the same whatever the flags were; `compute` then overwrites them,
whether it returns or raises (R110, R112). -/
theorem perform_alu2_setFlags (op : AluOp) {ra rb : RegIndex} (h : (validIndex ra && validIndex rb) = true) (s : State)
    (f : Flags) : perform (alu2 op ra rb) (s.setFlags f) = perform (alu2 op ra rb) s := by
  simp only [Bool.and_eq_true, validIndex_iff_names] at h
  obtain ⟨⟨a, ha⟩, ⟨b, hb⟩⟩ := h
  cases hr : rawResult op (s.reg a) (s.reg b) with
  | ok raw =>
    rw [perform_alu2_of_ok ha hb hr, perform_alu2_of_ok (s := s.setFlags f) ha hb hr, State.setFlags_setFlags]
  | error c =>
    rw [perform_alu2_of_error ha hb hr, perform_alu2_of_error (s := s.setFlags f) ha hb hr, State.setFlags_setFlags]

/-- `NOT` never raises, so it stores its raw result (R123). -/
theorem execNot_eq {ra : RegIndex} {a : Reg} (ha : Reg.ofIndex ra = some a) (s : State) :
    execNot ra s = .next ((s.setFlags (flagsOf (-s16 (s.reg a) - 1))).setReg .ac (u16 (-s16 (s.reg a) - 1))) :=
  perform_alu1_of_ok ha rfl

theorem execNot_setFlags {ra : RegIndex} (h : validIndex ra = true) (s : State) (f : Flags) :
    execNot ra (s.setFlags f) = execNot ra s := by
  obtain ⟨a, ha⟩ := (validIndex_iff_names ra).mp h
  rw [execNot_eq ha, execNot_eq ha, State.setFlags_setFlags, State.setFlags_reg]

/-- Settles O25. -/
theorem aluInstructionsOverwriteAllFlagsAndReadNone : Obligations.AluInstructionsOverwriteAllFlagsAndReadNone := by
  intro i s f halu hwf
  cases i with
  | add ra rb | sub ra rb | mult ra rb | div ra rb | mod ra rb | and ra rb | or ra rb | xor ra rb | lshft ra rb
  | rshft ra rb => exact perform_alu2_setFlags _ hwf s f
  | not ra => exact execNot_setFlags hwf s f
  | lw | sw | swp | psh | pshi | pop | jali | jal | ret | jr | ji | beq | bne | blt | ble | bgt | bge | hlt =>
    cases halu

/-! ### Signed readings -/

/-- The statements write a word's signed reading as `toInt`; the model and the proofs write it as `s16` (R9). -/
theorem toInt_eq_s16 (w : Word) : w.toInt = s16 w := rfl

theorem s16_inj {v w : Word} : s16 v = s16 w ↔ v = w := BitVec.toInt_inj

/-- The least signed reading is that of 0x8000 alone. -/
theorem s16_eq_min_iff (w : Word) : s16 w = -32768 ↔ w = 0x8000 := s16_inj (w := 0x8000)

theorem flagsOf_v_iff_abs (raw : Int) : (flagsOf raw).v = true ↔ 65535 < |raw| := by
  rw [flagsOf_v, Int.abs_eq_natAbs]
  omega

/-- The flags of a raw result that is a word's signed reading: `Z` and `N` are read off the word, `V` is never set. -/
theorem flagsOf_s16 {w : Word} {z n : Bool} (hz : z = true ↔ w = 0) (hn : w.msb = n) :
    flagsOf (s16 w) = { z := z, n := n, v := false } := by
  obtain ⟨hmin, hmax⟩ := s16_bounds w
  have hz' : (flagsOf (s16 w)).z = z := by rw [Bool.eq_iff_iff, flagsOf_z, s16_eq_zero, hz]
  have hn' : (flagsOf (s16 w)).n = n := by rw [← hn, BitVec.msb_eq_toInt]; rfl
  have hv : (flagsOf (s16 w)).v = false := flagsOf_v_of_small (by omega) (by omega)
  rw [← hz', ← hn', ← hv]

/-- A binary ALU instruction whose raw result is stored as `w`. -/
theorem perform_alu2_stores {op : AluOp} {ra rb : RegIndex} {a b : Reg} {raw : Int} {w : Word} {s : State}
    (ha : Reg.ofIndex ra = some a) (hb : Reg.ofIndex rb = some b) (h : rawResult op (s.reg a) (s.reg b) = .ok raw)
    (hw : u16 raw = w) : perform (alu2 op ra rb) s = .next ((s.setFlags (flagsOf raw)).setReg .ac w) := by
  rw [perform_alu2_of_ok ha hb h, hw]

/-- A binary ALU instruction whose raw result is the signed reading of `w`. -/
theorem perform_alu2_stores_word {op : AluOp} {ra rb : RegIndex} {a b : Reg} {w : Word} {z n : Bool} {s : State}
    (ha : Reg.ofIndex ra = some a) (hb : Reg.ofIndex rb = some b)
    (h : rawResult op (s.reg a) (s.reg b) = .ok (s16 w)) (hz : z = true ↔ w = 0) (hn : w.msb = n) :
    perform (alu2 op ra rb) s = .next ((s.setFlags { z := z, n := n, v := false }).setReg .ac w) := by
  rw [perform_alu2_stores ha hb h (u16_s16 w), flagsOf_s16 hz hn]

/-! ### Addition, subtraction, multiplication -/

/-- Settles O44: only the least sum, -65536, exceeds 65535 in magnitude. -/
theorem addResultAndFlags : Obligations.AddResultAndFlags := by
  intro s ra rb a b ha hb
  refine ⟨_, perform_alu2_stores ha hb rfl (u16_add _ _), flagsOf_z _, flagsOf_n _, ?_⟩
  have hbounds := s16_bounds (s.reg a)
  have hbounds' := s16_bounds (s.reg b)
  rw [flagsOf_v, ← s16_eq_min_iff, ← s16_eq_min_iff]
  omega

/-- Settles O45: the flags come from the exact difference, which no overflow falsifies. -/
theorem subResultAndFlags : Obligations.SubResultAndFlags := by
  intro s ra rb a b ha hb
  have hbounds := s16_bounds (s.reg a)
  have hbounds' := s16_bounds (s.reg b)
  refine ⟨_, perform_alu2_stores ha hb rfl (u16_sub _ _), ?_, ?_, flagsOf_v_of_small (by omega) (by omega)⟩
  · rw [flagsOf_z, sub_eq_zero, s16_inj]
  · rw [flagsOf_n, sub_neg, toInt_eq_s16, toInt_eq_s16]

/-- Settles O46. -/
theorem multResultAndFlags : Obligations.MultResultAndFlags := by
  intro s ra rb a b ha hb
  refine ⟨_, perform_alu2_stores ha hb rfl (u16_mul _ _), ?_, ?_, flagsOf_v_iff_abs _⟩
  · rw [flagsOf_z, mul_eq_zero, s16_eq_zero, s16_eq_zero]
  · rw [flagsOf_n, mul_neg_iff, or_comm]
    rfl

/-! ### Division

The quotient is read as the floor of a rational, so its sign and its bound are those of the rational. -/

theorem fdiv_eq_floor (a b : Int) : a.fdiv b = ⌊(a : ℚ) / b⌋ := by
  obtain h | h := le_total 0 b
  · lift b to ℕ using h
    rw [Int.fdiv_eq_ediv_of_nonneg _ (Int.natCast_nonneg b), Int.cast_natCast, Rat.floor_intCast_div_natCast]
  · obtain ⟨d, rfl⟩ := Int.exists_eq_neg_ofNat h
    rw [← Int.neg_fdiv_neg, neg_neg, Int.fdiv_eq_ediv_of_nonneg _ (Int.natCast_nonneg d),
      ← Rat.floor_intCast_div_natCast, Int.cast_neg, Int.cast_neg, Int.cast_natCast, neg_div, div_neg]

theorem fdiv_neg_iff (a b : Int) : a.fdiv b < 0 ↔ a < 0 ∧ 0 < b ∨ 0 < a ∧ b < 0 := by
  rw [fdiv_eq_floor, Int.floor_lt, Int.cast_zero, div_neg_iff, or_comm]
  simp only [Int.cast_pos, Int.cast_lt_zero]

/-- A quotient by an integer is no larger in magnitude than the dividend, before and after it is rounded. -/
theorem fdiv_bounds (a b : Int) : -|a| ≤ a.fdiv b ∧ a.fdiv b ≤ |a| := by
  have hle : |(a : ℚ) / b| ≤ |(a : ℚ)| := by
    obtain rfl | hb := eq_or_ne b 0
    · simp
    · have hone : (1 : ℚ) ≤ |(b : ℚ)| := by exact_mod_cast Int.one_le_abs hb
      rw [abs_div]
      exact div_le_self (abs_nonneg _) hone
  obtain ⟨hlo, hhi⟩ := abs_le.mp hle
  rw [fdiv_eq_floor, Int.le_floor, ← Int.cast_le (R := ℚ)]
  push_cast
  exact ⟨hlo, (Int.floor_le _).trans hhi⟩

/-- The quotient of two words: 32768 is reached by -32768 / -1 alone, so `V` is never set. -/
theorem fdiv_s16_bounds (a b : Word) : -32768 ≤ (s16 a).fdiv (s16 b) ∧ (s16 a).fdiv (s16 b) ≤ 32768 := by
  obtain ⟨hmin, hmax⟩ := s16_bounds a
  have habs : |s16 a| ≤ 32768 := abs_le.mpr ⟨hmin, by omega⟩
  obtain ⟨hlo, hhi⟩ := fdiv_bounds (s16 a) (s16 b)
  exact ⟨by omega, by omega⟩

/-- Settles O47. -/
theorem divResultAndFlags : Obligations.DivResultAndFlags := by
  intro s ra rb a b ha hb hne
  obtain ⟨hlo, hhi⟩ := fdiv_s16_bounds (s.reg a) (s.reg b)
  exact ⟨_, (s16 (s.reg a)).fdiv (s16 (s.reg b)), fdiv_eq_floor _ _, hlo, hhi,
    perform_alu2_of_ok ha hb (rawResult_div hne _), flagsOf_z _, flagsOf_n _,
    flagsOf_v_of_small (by omega) (by omega), (flagsOf_n _).trans (fdiv_neg_iff _ _)⟩

/-! ### Remainder -/

/-- The remainder lies between 0 and the divisor, on the divisor's side of 0 (R117). -/
theorem fmod_range (a : Int) {b : Int} (h : b ≠ 0) : 0 ≤ a.fmod b ∧ a.fmod b < b ∨ b < a.fmod b ∧ a.fmod b ≤ 0 := by
  obtain hneg | hpos := lt_or_gt_of_ne h
  · have hlo := Int.fmod_nonneg_of_pos (-a) (neg_pos.mpr hneg)
    have hhi := Int.fmod_lt_of_pos (-a) (neg_pos.mpr hneg)
    rw [Int.neg_fmod_neg] at hlo hhi
    exact .inr ⟨neg_lt_neg_iff.mp hhi, neg_nonneg.mp hlo⟩
  · exact .inl ⟨Int.fmod_nonneg_of_pos a hpos, Int.fmod_lt_of_pos a hpos⟩

/-- Settles O48: the remainder that goes with the quotient is `Int.fmod`. -/
theorem modResultAndFlags : Obligations.ModResultAndFlags := by
  intro s ra rb a b ha hb hne
  have hrange := fmod_range (s16 (s.reg a)) (mt (s16_eq_zero _).mp hne)
  have hbounds := s16_bounds (s.reg b)
  have hraw : rawResult .rem (s.reg a) (s.reg b) = .ok ((s16 (s.reg a)).fmod (s16 (s.reg b))) := by
    rw [rawResult_rem hne, Int.fmod_def]
  refine ⟨_, _, ?_, ?_, ?_, perform_alu2_of_ok ha hb hraw, ?_, ?_, flagsOf_v_of_small (by omega) (by omega)⟩
  · rw [Int.fmod_def, fdiv_eq_floor]
    rfl
  all_goals simp only [toInt_eq_s16, flagsOf_z, flagsOf_n, Int.dvd_iff_fmod_eq_zero, Int.abs_eq_natAbs]
  all_goals omega

/-! ### Bitwise operators -/

/-- The raw result of `NOT` is the signed reading of the complement. -/
theorem s16_not (w : Word) : s16 (~~~w) = -s16 w - 1 := by
  have hlt := w.isLt
  rw [s16, s16, BitVec.toInt_eq_toNat_cond, BitVec.toInt_eq_toNat_cond, BitVec.toNat_not]
  split <;> split <;> omega

/-- Settles O50. -/
theorem bitwiseResultsAndFlags : Obligations.BitwiseResultsAndFlags := by
  intro s ra rb a b ha hb
  refine ⟨perform_alu2_stores_word ha hb rfl decide_eq_true_iff BitVec.msb_and,
    perform_alu2_stores_word ha hb rfl ?_ BitVec.msb_or, perform_alu2_stores_word ha hb rfl ?_ BitVec.msb_xor⟩
  · exact decide_eq_true_iff.trans BitVec.or_eq_zero_iff.symm
  · exact decide_eq_true_iff.trans BitVec.xor_eq_zero_iff.symm

/-- Settles O53. -/
theorem notResultAndFlags : Obligations.NotResultAndFlags := by
  intro s ra a ha
  have hz : decide (s.reg a = 0xFFFF) = true ↔ ~~~s.reg a = 0 := by
    rw [decide_eq_true_iff, BitVec.not_eq_comm]
    rfl
  have hn : (~~~s.reg a).msb = !(s.reg a).msb := BitVec.msb_not
  have hnot := execNot_eq ha s
  rw [← s16_not, u16_s16, flagsOf_s16 hz hn] at hnot
  exact hnot

/-! ### Shifts -/

/-- Truncating the exact shifted value shifts the pattern; a count of 16 or more leaves 0 (R121). -/
theorem u16_shiftLeft (a : Word) (n : ℕ) : u16 (s16 a * 2 ^ n) = a <<< n := by
  have hpow : BitVec.ofInt 16 (2 ^ n) = BitVec.twoPow 16 n := by
    have hcast : (2 : Int) ^ n = ((2 ^ n : ℕ) : Int) := (Nat.cast_pow 2 n).symm
    rw [hcast, BitVec.ofInt_natCast]
    exact BitVec.eq_of_toNat_eq (by simp)
  rw [u16, s16, BitVec.ofInt_mul, BitVec.ofInt_toInt, hpow, BitVec.shiftLeft_eq_mul_twoPow]

/-- Settles O51. -/
theorem lshftResultAndFlags : Obligations.LshftResultAndFlags := by
  intro s ra rb a b ha hb hcount
  have hpow : (0 : Int) < 2 ^ (s.reg b).toNat := by positivity
  refine ⟨_, perform_alu2_stores ha hb (rawResult_lshift hcount _) (u16_shiftLeft _ _), ?_, ?_, ?_⟩
  · rw [flagsOf_z, mul_eq_zero_iff_right hpow.ne', s16_eq_zero]
  · rw [flagsOf_n]
    exact lt_iff_lt_of_le_iff_le (mul_nonneg_iff_of_pos_right hpow)
  · rw [flagsOf_v_iff_abs, abs_mul, abs_of_pos hpow]
    refine (and_iff_right_of_imp fun h hzero => ?_).symm
    rw [(s16_eq_zero _).mpr hzero] at h
    simp at h

/-- The sign-propagating shift divides by the power of two and rounds toward minus infinity (R122). -/
theorem s16_sshiftRight (a : Word) (n : ℕ) : s16 (a.sshiftRight n) = s16 a / 2 ^ n := by
  rw [s16, BitVec.toInt_sshiftRight, Int.shiftRight_eq_div_pow]
  push_cast
  rfl

theorem s16_sshiftRight_eq_floor (a : Word) (n : ℕ) : s16 (a.sshiftRight n) = ⌊(s16 a : ℚ) / 2 ^ n⌋ := by
  have hfloor := Rat.floor_intCast_div_natCast (s16 a) (2 ^ n)
  push_cast at hfloor
  rw [s16_sshiftRight, hfloor]

theorem s16_sshiftRight_eq_zero_iff (a : Word) (n : ℕ) : s16 (a.sshiftRight n) = 0 ↔ 0 ≤ s16 a ∧ s16 a < 2 ^ n := by
  rw [s16_sshiftRight, Int.ediv_eq_iff_of_pos (by positivity), zero_mul, zero_add]

/-- Settles O52: the raw result is the signed reading of the shifted word, so the word stored is exact. -/
theorem rshftResultAndFlags : Obligations.RshftResultAndFlags := by
  intro s ra rb a b ha hb hcount
  have hraw := rawResult_rshift hcount (s.reg a)
  rw [← s16_sshiftRight] at hraw
  refine ⟨_, _, perform_alu2_stores_word ha hb hraw decide_eq_true_iff BitVec.msb_sshiftRight,
    s16_sshiftRight_eq_floor _ _, rfl, ?_, ?_, rfl⟩
  · rw [decide_eq_true_iff, ← s16_eq_zero]
    exact s16_sshiftRight_eq_zero_iff _ _
  · rw [BitVec.msb_eq_toInt, decide_eq_true_iff]

end Sys2Proof.Machine

/-! Proofs of the statements of spec/41_fetch_step_run.md. First what the fetch of one instruction answers, by whether its
bytes lie inside `PROG`; then one frame of the writes that an instruction other than `HLT` makes, read off once for the
run state and once for `sp`; between these `push` and `pop`, and last the order in which the ALU's operands are checked. -/

namespace Sys2Proof.Machine

/-! ### The fetches inside and outside PROG -/

section

variable {s : State} {sh : Shape}

theorem fetch_of_inside (h : (s.reg .ip).toNat < s.cfg.progSize) :
    fetch s = .ok (s.prog.get (s.reg .ip).toNat) (s.setReg .ip (s.reg .ip + 1)) := by
  rw [fetch_eq, if_pos h]

theorem fetch_of_outside (h : s.cfg.progSize ≤ (s.reg .ip).toNat) :
    fetch s = .error (.addressOutOfBounds .prog (s.reg .ip).toNat) s := by
  rw [fetch_eq, if_neg (by omega)]

theorem fetchWord_of_inside (h : (s.reg .ip).toNat + 1 < s.cfg.progSize) :
    fetchWord s = .ok (s.prog.getWord (s.reg .ip).toNat) (s.setReg .ip (s.reg .ip + 2)) := by
  rw [fetchWord_eq, if_pos h]

theorem fetchWord_of_outside (h : s.cfg.progSize ≤ (s.reg .ip).toNat + 1) :
    fetchWord s = .error (.addressOutOfBounds .prog (firstBadAddress s .prog (s.reg .ip).toNat)) s := by
  rw [fetchWord_eq, if_neg (by omega)]

/-- The state between the fetch of the opcode byte and that of the operand bytes. -/
def State.pastOpcode (s : State) : State := s.setReg .ip (s.reg .ip + 1)

@[simp] theorem State.pastOpcode_ip (s : State) : s.pastOpcode.reg .ip = s.reg .ip + 1 := State.reg_setReg_self s _ _
@[simp] theorem State.pastOpcode_cfg (s : State) : s.pastOpcode.cfg = s.cfg := rfl
@[simp] theorem State.pastOpcode_prog (s : State) : s.pastOpcode.prog = s.prog := rfl
@[simp] theorem State.pastOpcode_setReg (s : State) (w : Word) : s.pastOpcode.setReg .ip w = s.setReg .ip w :=
  State.setReg_setReg_self s _ _ _

/-- The first operand byte of a register format. -/
theorem fetch_pastOpcode (h : (s.reg .ip + 1).toNat < s.cfg.progSize) :
    fetch s.pastOpcode = .ok (s.prog.get (s.reg .ip + 1).toNat) (s.setReg .ip (s.reg .ip + 2)) := by
  rw [fetch_of_inside (by simpa using h)]
  simp [BitVec.add_assoc]

/-- A legal opcode byte is followed by the fetch of its row's operand bytes. -/
theorem fetchInstr_of_opcode (hip : (s.reg .ip).toNat < s.cfg.progSize)
    (hop : opcodeShape (s.prog.get (s.reg .ip).toNat) = some sh) : fetchInstr s = fetchOperands sh s.pastOpcode := by
  rw [fetchInstr, bind_of_ok (fetch_of_inside hip), hop]
  rfl

/-! ### The fetch of an instruction -/

theorem fetchFits_n : s.fetchFits .n = true ↔ (s.reg .ip).toNat < s.cfg.progSize := addressExists_iff s .prog _

theorem fetchFits_r :
    s.fetchFits .r = true ↔ (s.reg .ip).toNat < s.cfg.progSize ∧ (s.reg .ip + 1).toNat < s.cfg.progSize := by
  simp [State.fetchFits]

theorem fetchFits_rr :
    s.fetchFits .rr = true ↔ (s.reg .ip).toNat < s.cfg.progSize ∧ (s.reg .ip + 1).toNat < s.cfg.progSize ∧
      (s.reg .ip + 2).toNat < s.cfg.progSize := by
  simp [State.fetchFits, and_assoc]

theorem fetchFits_i :
    s.fetchFits .i = true ↔ (s.reg .ip).toNat < s.cfg.progSize ∧ (s.reg .ip + 1).toNat + 1 < s.cfg.progSize := by
  simp [State.fetchFits]

/-- A fetch that fits begins with an opcode byte inside `PROG`. -/
theorem opcode_inside_of_fetchFits {f : Format} (h : s.fetchFits f = true) : (s.reg .ip).toNat < s.cfg.progSize := by
  cases f with
  | n => exact fetchFits_n.mp h
  | r => exact (fetchFits_r.mp h).1
  | rr => exact (fetchFits_rr.mp h).1
  | i => exact (fetchFits_i.mp h).1

/-- The three bytes of the window are consecutive where the second and third make up an immediate, and do not wrap. -/
theorem window_immediate (hcap : s.cfg.progSize ≤ 65536) (h : (s.reg .ip + 1).toNat + 1 < s.cfg.progSize) :
    s.window = [s.prog.get (s.reg .ip).toNat, highByte (s.prog.getWord (s.reg .ip + 1).toNat),
      lowByte (s.prog.getWord (s.reg .ip + 1).toNat)] := by
  have hnext : (s.reg .ip + 2).toNat = (s.reg .ip + 1).toNat + 1 := by bv_omega
  rw [State.window, hnext, Memory.getWord, highByte_beWord, lowByte_beWord]

/-- A fetch that stays inside `PROG` gives the instruction that the opcode's row makes of the bytes after it, and leaves
`ip` past them. -/
theorem fetchInstr_of_fits (hop : opcodeShape (s.prog.get (s.reg .ip).toNat) = some sh)
    (hfits : s.fetchFits sh.format = true) :
    ∃ operands i, sh.Makes operands i ∧
      fetchInstr s = .ok i (s.setReg .ip (s.reg .ip + BitVec.ofNat 16 sh.format.length)) ∧
      (s.cfg.progSize ≤ 65536 → ∃ rest, s.window = s.prog.get (s.reg .ip).toNat :: (operands ++ rest)) := by
  rw [fetchInstr_of_opcode (opcode_inside_of_fetchFits hfits) hop]
  cases sh with
  | n i => exact ⟨[], i, .n i, rfl, fun _ => ⟨_, rfl⟩⟩
  | r f =>
    obtain ⟨-, hra⟩ := fetchFits_r.mp hfits
    refine ⟨_, _, .r f _, ?_, fun _ => ⟨_, rfl⟩⟩
    rw [fetchOperands, bind_of_ok (fetch_pastOpcode hra)]
    rfl
  | rr f =>
    obtain ⟨-, hra, hrb⟩ := fetchFits_rr.mp hfits
    refine ⟨_, _, .rr f _ _, ?_, fun _ => ⟨[], rfl⟩⟩
    rw [fetchOperands, bind_of_ok (fetch_pastOpcode hra), bind_of_ok (fetch_of_inside (by simpa using hrb))]
    simp [BitVec.add_assoc, Shape.format, Format.length]
  | i f =>
    obtain ⟨-, himm⟩ := fetchFits_i.mp hfits
    refine ⟨_, _, .i f _, ?_, fun hcap => ⟨[], window_immediate hcap himm⟩⟩
    rw [fetchOperands, bind_of_ok (fetchWord_of_inside (by simpa using himm))]
    simp [BitVec.add_assoc, Shape.format, Format.length]

/-- A fetch that leaves `PROG` raises, whichever of its bytes is the first outside, and names an address outside. -/
theorem fetchInstr_of_not_fits
    (hop : (s.reg .ip).toNat < s.cfg.progSize → opcodeShape (s.prog.get (s.reg .ip).toNat) = some sh)
    (hfits : s.fetchFits sh.format = false) :
    ∃ a u, fetchInstr s = .error (.addressOutOfBounds .prog a) u ∧ s.cfg.progSize ≤ a := by
  rw [← Bool.not_eq_true] at hfits
  obtain hout | hip := le_or_gt s.cfg.progSize (s.reg .ip).toNat
  · exact ⟨_, s, bind_of_error (fetch_of_outside hout), hout⟩
  rw [fetchInstr_of_opcode hip (hop hip)]
  cases sh with
  | n i => exact absurd (fetchFits_n.mpr hip) hfits
  | r f =>
    have hra : s.cfg.progSize ≤ (s.reg .ip + 1).toNat := by
      have := mt fetchFits_r.mpr hfits
      omega
    exact ⟨_, _, bind_of_error (fetch_of_outside (by simpa using hra)), by simpa using hra⟩
  | rr f =>
    obtain hra | hra := le_or_gt s.cfg.progSize (s.reg .ip + 1).toNat
    · exact ⟨_, _, bind_of_error (fetch_of_outside (by simpa using hra)), by simpa using hra⟩
    · have hrb : s.cfg.progSize ≤ (s.reg .ip + 2).toNat := by
        have := mt fetchFits_rr.mpr hfits
        omega
      rw [fetchOperands, bind_of_ok (fetch_pastOpcode hra)]
      exact ⟨_, _, bind_of_error (fetch_of_outside (by simpa using hrb)), by simpa using hrb⟩
  | i f =>
    have himm : ¬ (s.reg .ip + 1).toNat + 1 < s.cfg.progSize := fun h => hfits (fetchFits_i.mpr ⟨hip, h⟩)
    have hbad : segCap s.pastOpcode.cfg .prog ≤ firstBadAddress s.pastOpcode .prog (s.pastOpcode.reg .ip).toNat :=
      le_firstBadAddress (by simpa using himm)
    exact ⟨_, _, bind_of_error (fetchWord_of_outside (by simpa using himm)), hbad⟩

end

/-- An instruction that was fetched is made by the row of the opcode byte at `ip`, and `ip` alone has moved. -/
theorem fetchInstr_eq_ok {s u : State} {i : Instr} (h : fetchInstr s = .ok i u) :
    ∃ sh operands, opcodeShape (s.prog.get (s.reg .ip).toNat) = some sh ∧ sh.Makes operands i ∧
      u = s.setReg .ip (s.reg .ip + BitVec.ofNat 16 sh.format.length) := by
  obtain hip | hip := lt_or_ge (s.reg .ip).toNat s.cfg.progSize
  · cases hop : opcodeShape (s.prog.get (s.reg .ip).toNat) with
    | none => rw [fetchInstr_of_illegal hip hop] at h; cases h
    | some sh =>
      cases hfits : s.fetchFits sh.format with
      | true =>
        obtain ⟨operands, j, hmakes, he, -⟩ := fetchInstr_of_fits hop hfits
        rw [he] at h
        cases h
        exact ⟨sh, operands, rfl, hmakes, rfl⟩
      | false =>
        obtain ⟨a, v, he, -⟩ := fetchInstr_of_not_fits (fun _ => hop) hfits
        rw [he] at h
        cases h
  · rw [fetchInstr, bind_of_error (fetch_of_outside hip)] at h
    cases h

/-- The fetch of an instruction leaves the run state. -/
theorem fetchInstr_rs {s u : State} {i : Instr} (h : fetchInstr s = .ok i u) : u.rs = s.rs := by
  obtain ⟨sh, operands, -, -, rfl⟩ := fetchInstr_eq_ok h
  exact State.setReg_rs _ _ _

/-- `HLT` is fetched only from its own opcode byte, which is the whole instruction. -/
theorem fetchInstr_eq_hlt {s u : State} (h : fetchInstr s = .ok .hlt u) :
    s.prog.get (s.reg .ip).toNat = 0x1D ∧ u = s.setReg .ip (s.reg .ip + 1) := by
  obtain ⟨sh, operands, hop, hmakes, rfl⟩ := fetchInstr_eq_ok h
  have hopcode : [0x1D] = s.prog.get (s.reg .ip).toNat :: operands := encode_of_makes hop hmakes
  obtain ⟨hbyte, -⟩ := List.cons.inj hopcode
  rw [← hbyte] at hop
  obtain rfl : Shape.n .hlt = sh := Option.some.inj hop
  exact ⟨hbyte.symm, rfl⟩

/-- Settles O8. -/
theorem fetchOutsideProgFaults : Obligations.FetchOutsideProgFaults := by
  intro s sh hr hop hfits
  obtain ⟨a, u, he, ha⟩ := fetchInstr_of_not_fits hop hfits
  exact ⟨_, a, step_of_fetch_fault hr he, takeFault_rs _ _, ha⟩

/-- Settles O7: the instruction fetched is the one the decoder reads from the same bytes. -/
theorem stepPerformsTheDecodedInstruction : Obligations.StepPerformsTheDecodedInstruction := by
  intro s i rest hr hcap hdec hfits
  have hformat : (opcodeShape (s.prog.get (s.reg .ip).toNat)).map Shape.format = some i.format :=
    (format_and_length_of_decode hdec).1
  obtain ⟨sh, hop, hsh⟩ := Option.map_eq_some_iff.mp hformat
  rw [← hsh] at hfits ⊢
  obtain ⟨operands, j, hmakes, hfetch, hwindow⟩ := fetchInstr_of_fits hop hfits
  obtain ⟨rest', hw⟩ := hwindow hcap
  have hj : i = j := by
    rw [hw, decode_of_makes hop hmakes] at hdec
    cases hdec
    rfl
  rw [hj]
  exact step_of_fetched hr hfetch

/-- Settles O9. -/
theorem runningMachineAlwaysAnswersANextState : Obligations.RunningMachineAlwaysAnswersANextState :=
  fun _ => step_total_of_running

/-! ### The writes of an instruction other than HLT -/

/-- What every operation of an instruction keeps, the instruction keeps up to where it ends or raises. -/
theorem perform_keeps {P : State → State → Prop} {m : Micro Unit} (hm : Keeps P m) {s t : State}
    (h : perform m s = .next t) : P s t ∨ ∃ c u, P s u ∧ t = takeFault c u := by
  obtain hok | ⟨c, u, herr, ht⟩ := perform_cases h
  · exact .inl ((hm s).1 () t hok)
  · exact .inr ⟨c, u, (hm s).2 c u herr, ht⟩

/-- The changes that an instruction makes before it ends, each kept by a relation between states: writes to the registers
in `W`, which hold the two that are written by name, writes to the flags, and the segment and stack operations. Unlike
`Frame`, it leaves out the run state, which `HLT` alone writes, and it takes `push` and `pop` whole. -/
structure RunningFrame (P : State → State → Prop) (W : Reg → Prop) : Prop where
  refl : ∀ s, P s s
  trans : ∀ s t u, P s t → P t u → P s u
  reg : ∀ s r w, W r → P s (s.setReg r w)
  ip : W .ip
  ac : W .ac
  flags : ∀ s f, P s (s.setFlags f)
  gp : ∀ s m, P s (s.setSeg .gp m)
  push : ∀ v, Keeps P (push v)
  pop : Keeps P pop

namespace RunningFrame

variable {P : State → State → Prop} {W : Reg → Prop} (F : RunningFrame P W)
include F

theorem bind {α β : Type} {m : Micro α} {f : α → Micro β} (hm : Keeps P m) (hf : ∀ a, Keeps P (f a)) :
    Keeps P (m >>= f) := keeps_bind F.trans hm hf

theorem pure {α : Type} (a : α) : Keeps P (pure a : Micro α) := keeps_of_ok fun s => ⟨a, s, rfl, F.refl s⟩

theorem writeNamed {r : Reg} (hr : W r) (w : Word) : Keeps P (writeNamed r w) :=
  keeps_of_ok fun s => ⟨_, _, rfl, F.reg s r w hr⟩

theorem readReg (n : RegIndex) : Keeps P (readReg n) := by
  intro s
  cases h : Reg.ofIndex n with
  | none => rw [readReg_of_none h]; simp [F.refl s]
  | some r => rw [readReg_of_some h]; simp [F.refl s]

theorem writeReg {n : RegIndex} (hn : ∀ r, Reg.ofIndex n = some r → W r) (w : Word) : Keeps P (writeReg n w) := by
  intro s
  cases h : Reg.ofIndex n with
  | none => rw [writeReg_of_none h]; simp [F.refl s]
  | some r => rw [writeReg_of_some h]; simp [F.reg s r w (hn r h)]

theorem readGp (a : Nat) : Keeps P (memReadWord .gp a) := by
  intro s
  rw [memReadWord_eq]
  split <;> simp [F.refl s]

theorem writeGp (a : Nat) (w : Word) : Keeps P (memWriteWord .gp a w) := by
  intro s
  rw [memWriteWord_eq]
  split
  · simp [F.gp s]
  · simp [F.refl s]

theorem compute (op : AluOp) (a b : Word) : Keeps P (compute op a b) := by
  intro s
  cases h : rawResult op a b with
  | ok raw => rw [compute_of_ok h]; simp [F.flags s]
  | error c => rw [compute_of_error h]; simp [F.flags s]

theorem alu2 (op : AluOp) (ra rb : RegIndex) : Keeps P (alu2 op ra rb) :=
  F.bind (F.readReg ra) fun a => F.bind (F.readReg rb) fun b => F.bind (F.compute op a b) fun _ => F.writeNamed F.ac _

theorem alu1 (op : AluOp) (ra : RegIndex) : Keeps P (alu1 op ra) :=
  F.bind (F.readReg ra) fun a => F.bind (F.compute op a 0) fun _ => F.writeNamed F.ac _

theorem branch (cond : Flags → Bool) (imm : Word) : Keeps P (branch cond imm) := by
  refine keeps_of_ok fun s => ⟨(), _, rfl, ?_⟩
  split
  · exact F.reg s .ip imm F.ip
  · exact F.refl s

/-- Every instruction but `HLT` keeps the relation up to where it ends or raises, if `W` holds the registers that its
destination operands name. -/
theorem exec {i : Instr} (hi : i ≠ .hlt) (hdest : ∀ n ∈ i.destinations, ∀ r, Reg.ofIndex n = some r → W r) {s t : State}
    (h : exec i s = .next t) : P s t ∨ ∃ c u, P s u ∧ t = takeFault c u := by
  cases i with
  | lw rd rs =>
    exact perform_keeps (F.bind (F.readReg rs) fun _ => F.bind (F.readGp _) fun v =>
      F.writeReg (hdest rd List.mem_cons_self) v) h
  | sw rs rd => exact perform_keeps (F.bind (F.readReg rs) fun v => F.bind (F.readReg rd) fun _ => F.writeGp _ v) h
  | swp ra rb =>
    have ha := hdest ra List.mem_cons_self
    have hb := hdest rb (List.mem_cons_of_mem _ List.mem_cons_self)
    exact perform_keeps (F.bind (F.readReg ra) fun a => F.bind (F.push a) fun _ => F.bind (F.readReg rb) fun b =>
      F.bind (F.push b) fun _ => F.bind F.pop fun x => F.bind (F.writeReg ha x) fun _ => F.bind F.pop fun y =>
      F.writeReg hb y) h
  | psh rs => exact perform_keeps (F.bind (F.readReg rs) fun v => F.push v) h
  | pshi imm => exact perform_keeps (F.push imm) h
  | pop rd => exact perform_keeps (F.bind F.pop fun v => F.writeReg (hdest rd List.mem_cons_self) v) h
  | jali _ | jal _ | ret => exact perform_keeps (F.pure ()) h
  | add ra rb | sub ra rb | mult ra rb | div ra rb | mod ra rb | and ra rb | or ra rb | xor ra rb | lshft ra rb
  | rshft ra rb => exact perform_keeps (F.alu2 _ ra rb) h
  | not ra => exact perform_keeps (F.alu1 _ ra) h
  | jr rs => exact perform_keeps (F.bind (F.readReg rs) fun v => F.writeNamed F.ip v) h
  | ji imm => exact perform_keeps (F.writeNamed F.ip imm) h
  | beq imm => exact perform_keeps (F.branch (fun f => f.z) imm) h
  | bne imm => exact perform_keeps (F.branch (fun f => !f.z) imm) h
  | blt imm => exact perform_keeps (F.branch (fun f => f.n) imm) h
  | ble imm => exact perform_keeps (F.branch (fun f => f.n || f.z) imm) h
  | bgt imm => exact perform_keeps (F.branch (fun f => !f.n) imm) h
  | bge imm => exact perform_keeps (F.branch (fun f => !f.n || f.z) imm) h
  | hlt => exact absurd rfl hi

end RunningFrame

/-! ### A run ends by HLT alone -/

/-- The run state is the same in both states. -/
def SameRunState (s t : State) : Prop := t.rs = s.rs

theorem runningFrame_sameRunState : RunningFrame SameRunState fun _ => True where
  refl _ := rfl
  trans _ _ _ h h' := h'.trans h
  reg _ _ _ _ := rfl
  ip := trivial
  ac := trivial
  flags _ _ := rfl
  gp _ _ := rfl
  push v s := by
    rw [push_eq]
    split <;> simp [SameRunState]
  pop s := by
    rw [pop_eq]
    split <;> simp [SameRunState]

theorem exec_hlt (s : State) : exec .hlt s = .next (s.setRs .halted) := rfl

/-- No instruction but `HLT` halts a running machine. -/
theorem eq_hlt_of_exec_halts {i : Instr} {s t : State} (hr : s.rs = .running) (h : exec i s = .next t)
    (ht : t.rs = .halted) : i = .hlt := by
  by_contra hi
  obtain hsame | ⟨c, u, -, rfl⟩ := runningFrame_sameRunState.exec hi (fun _ _ _ _ => trivial) h
  · have hrs : t.rs = s.rs := hsame
    rw [ht, hr] at hrs
    cases hrs
  · rw [takeFault_rs] at ht
    cases ht

/-- Settles O11. -/
theorem onlyHltEndsARunSuccessfully : Obligations.OnlyHltEndsARunSuccessfully := by
  intro s t hstep ht
  obtain ⟨hr, ⟨i, u, hfetch, hexec⟩ | ⟨c, u, -, rfl⟩⟩ := step_cases hstep
  · obtain rfl : i = .hlt := eq_hlt_of_exec_halts ((fetchInstr_rs hfetch).trans hr) hexec ht
    obtain ⟨hbyte, rfl⟩ := fetchInstr_eq_hlt hfetch
    rw [exec_hlt] at hexec
    cases hexec
    exact ⟨hbyte, rfl⟩
  · rw [takeFault_rs] at ht
    cases ht

/-! ### Push and pop -/

/-- Settles O31. -/
theorem pushWritesThenMovesSp : Obligations.PushWritesThenMovesSp := by
  refine fun s v => ⟨fun hin => ?_, fun hout => ⟨_, push_of_not_fits v (by omega)⟩⟩
  rw [← spAfterPush_eq]
  exact push_of_fits v hin

/-- Settles O32. -/
theorem popMovesSpThenReads : Obligations.PopMovesSpThenReads := by
  intro s q hq
  have hmove : spForPop s.cfg (s.reg .sp) = q := hq.symm
  exact ⟨fun hin => ⟨_, pop_of_fits hmove hin, Memory.toNat_getWord _ _⟩,
    fun hout => ⟨_, pop_of_not_fits hmove (by omega)⟩⟩

theorem push_eq_ok {s t : State} {v : Word} (h : push v s = .ok () t) :
    (s.reg .sp).toNat + 1 < s.cfg.stackSize ∧
      t = (s.setSeg .stack (s.stack.setWord (s.reg .sp).toNat v)).setReg .sp (spAfterPush (s.reg .sp)) := by
  rw [push_eq] at h
  split at h
  next hin => cases h; exact ⟨hin, rfl⟩
  next => cases h

theorem pop_eq_ok {s u : State} {w : Word} (h : pop s = .ok w u) :
    (spForPop s.cfg (s.reg .sp)).toNat + 1 < s.cfg.stackSize ∧
      u = s.setReg .sp (spForPop s.cfg (s.reg .sp)) := by
  rw [pop_eq] at h
  split at h
  next hin => cases h; exact ⟨hin, rfl⟩
  next => cases h

/-- A whole word above `sp` is what `SP_MAX` bounds. -/
theorem le_spMax_of_succ_lt {c : Config} {n : Nat} (h : n + 1 < c.stackSize) : n ≤ c.spMax := by
  unfold Config.spMax
  omega

/-- Below 2 a pop does not come back to where the push wrote: from 0 the push does not move `sp` and the pop moves it up,
from 1 the push wraps to 65535, where no word is (R146). -/
theorem two_le_of_spForPop_spAfterPush {c : Config} {sp : Word} (hok : c.ok = true) (hmax : 2 ≤ c.spMax)
    (hback : spForPop c (spAfterPush sp) = sp) (hin : sp.toNat + 1 < c.stackSize) : 2 ≤ sp.toNat := by
  obtain ⟨-, hle, -⟩ := Config.stackSize_of_ok hok
  by_contra hlt
  obtain h0 | h1 : sp = 0 ∨ sp = 1 := by bv_omega
  · subst h0
    rw [spAfterPush_eq, if_pos rfl, spForPop_of_lt (by simp; omega)] at hback
    exact absurd hback (by decide)
  · subst h1
    have hwrap : ¬ (0xFFFF : Word).toNat < c.spMax := by simp [Config.spMax]; omega
    have hpush : spAfterPush 1 = 0xFFFF := rfl
    rw [hpush, spForPop_of_not_lt hwrap] at hback
    exact absurd hback (by decide)

/-- In the range of R146 a pop answers the word just pushed, and `sp` is back where it was. -/
theorem pop_of_pushed {s : State} (v : Word) (hlo : 2 ≤ (s.reg .sp).toNat) (hhi : (s.reg .sp).toNat ≤ s.cfg.spMax) :
    pop ((s.setSeg .stack (s.stack.setWord (s.reg .sp).toNat v)).setReg .sp (spAfterPush (s.reg .sp))) =
      .ok v (s.setSeg .stack (s.stack.setWord (s.reg .sp).toNat v)) := by
  have hin : (s.reg .sp).toNat + 1 < s.cfg.stackSize := succ_lt_of_le_spMax (by omega) hhi
  rw [pop_of_fits (q := s.reg .sp) (by simpa using spForPop_spAfterPush hlo hhi) (by simpa using hin)]
  simp [State.setReg_of_eq]

/-- Settles O33. -/
theorem popAfterPushGivesTheValueBackExactlyInRange : Obligations.PopAfterPushGivesTheValueBackExactlyInRange := by
  intro s v hok hmax
  constructor
  · rintro ⟨t, u, hpush, hpop, hsp⟩
    obtain ⟨hin, rfl⟩ := push_eq_ok hpush
    obtain ⟨-, rfl⟩ := pop_eq_ok hpop
    have hback : spForPop s.cfg (spAfterPush (s.reg .sp)) = s.reg .sp := by simpa using hsp
    exact ⟨two_le_of_spForPop_spAfterPush hok hmax hback hin, le_spMax_of_succ_lt hin⟩
  · rintro ⟨hlo, hhi⟩
    have hin : (s.reg .sp).toNat + 1 < s.cfg.stackSize := succ_lt_of_le_spMax (by omega) hhi
    exact ⟨_, _, push_of_fits v hin, pop_of_pushed v hlo hhi, State.setSeg_reg s _ _ _⟩

/-! ### The range of sp -/

theorem State.spOk_iff (s : State) :
    s.spOk = true ↔ (s.reg .sp).toNat % 2 = 0 ∧ (s.reg .sp).toNat ≤ s.cfg.spMax := by
  simp [State.spOk]

/-- A legal configuration with `sp` even and in range in the first state is one in the second. -/
def KeepsSpOk (s t : State) : Prop := s.cfg.ok = true ∧ s.spOk = true → t.cfg.ok = true ∧ t.spOk = true

/-- `spOk` reads the configuration and `sp` alone. -/
theorem keepsSpOk_of_same {s t : State} (hcfg : t.cfg = s.cfg) (hsp : t.reg .sp = s.reg .sp) : KeepsSpOk s t := by
  unfold KeepsSpOk State.spOk
  rw [hcfg, hsp]
  exact id

/-- A push moves an even `sp` down by 2, and stops at 0. -/
theorem spAfterPush_in_range {c : Config} {sp : Word} (heven : sp.toNat % 2 = 0) (hle : sp.toNat ≤ c.spMax) :
    (spAfterPush sp).toNat % 2 = 0 ∧ (spAfterPush sp).toNat ≤ c.spMax := by
  obtain hzero | hpos := Nat.eq_zero_or_pos sp.toNat
  · rw [spAfterPush, if_neg (by simp [Config.spMin, hzero])]
    exact ⟨heven, hle⟩
  · rw [toNat_spAfterPush (by omega)]
    omega

/-- A pop moves an even `sp` up by 2, and stops at `SP_MAX`, which is even too. -/
theorem spForPop_in_range {c : Config} {sp : Word} (hok : c.ok = true) (heven : sp.toNat % 2 = 0)
    (hle : sp.toNat ≤ c.spMax) : (spForPop c sp).toNat % 2 = 0 ∧ (spForPop c sp).toNat ≤ c.spMax := by
  obtain hlt | hge := lt_or_ge sp.toNat c.spMax
  · obtain ⟨_, _, _⟩ := Config.stackSize_of_ok hok
    rw [spForPop_of_lt hlt]
    unfold Config.spMax at *
    have hmove : (sp + 2).toNat = sp.toNat + 2 := by bv_omega
    omega
  · rw [spForPop_of_not_lt (by omega)]
    exact ⟨heven, hle⟩

/-- Where a push leaves `sp` is in range if `sp` was; it does not move when the write raises. -/
theorem keepsSpOk_push (v : Word) : Keeps KeepsSpOk (push v) := by
  have hmoved (s : State) (m : Memory) : KeepsSpOk s ((s.setSeg .stack m).setReg .sp (spAfterPush (s.reg .sp))) := by
    rintro ⟨hok, hsp⟩
    obtain ⟨heven, hle⟩ := (State.spOk_iff s).mp hsp
    rw [State.spOk_iff, State.reg_setReg_self, State.setReg_cfg, State.setSeg_cfg]
    exact ⟨hok, spAfterPush_in_range heven hle⟩
  intro s
  rw [push_eq]
  split
  · simp [hmoved]
  · simp [keepsSpOk_of_same]

/-- Where a pop leaves `sp` is in range if `sp` was, whether the read answers or raises. -/
theorem keepsSpOk_pop : Keeps KeepsSpOk pop := by
  have hmoved (s : State) : KeepsSpOk s (s.setReg .sp (spForPop s.cfg (s.reg .sp))) := by
    rintro ⟨hok, hsp⟩
    obtain ⟨heven, hle⟩ := (State.spOk_iff s).mp hsp
    rw [State.spOk_iff, State.reg_setReg_self, State.setReg_cfg]
    exact ⟨hok, spForPop_in_range hok heven hle⟩
  intro s
  rw [pop_eq]
  split <;> simp [hmoved]

theorem runningFrame_keepsSpOk : RunningFrame KeepsSpOk (· ≠ .sp) where
  refl _ := id
  trans _ _ _ h h' := h' ∘ h
  reg s _ w hr := keepsSpOk_of_same rfl (State.reg_setReg_of_ne s w hr.symm)
  ip := by decide
  ac := by decide
  flags _ _ := keepsSpOk_of_same rfl rfl
  gp _ _ := keepsSpOk_of_same rfl rfl
  push := keepsSpOk_push
  pop := keepsSpOk_pop

/-- Settles O42. -/
theorem spStaysEvenAndInRange : Obligations.SpStaysEvenAndInRange := by
  intro i s t hok hsp hdest h
  by_cases hi : i = .hlt
  · subst hi
    rw [exec_hlt] at h
    cases h
    exact hsp
  · have hdest' : ∀ n ∈ i.destinations, ∀ r, Reg.ofIndex n = some r → r ≠ .sp := by
      rintro n hn r hr rfl
      exact hdest n hn hr
    obtain hkept | ⟨c, u, hkept, rfl⟩ := runningFrame_keepsSpOk.exec hi hdest' h
    · exact (hkept ⟨hok, hsp⟩).2
    · exact (hkept ⟨hok, hsp⟩).2

/-! ### Bad register indices of the ALU instructions -/

/-- The ten binary ALU instructions are the one template with their operator (R150). -/
theorem exec_eq_perform_alu2 {mk : RegIndex → RegIndex → Instr}
    (h : mk ∈ [Instr.add, Instr.sub, Instr.mult, Instr.div, Instr.mod, Instr.and, Instr.or, Instr.xor, Instr.lshft,
      Instr.rshft]) : ∃ op, ∀ ra rb s, exec (mk ra rb) s = perform (alu2 op ra rb) s := by
  simp only [List.mem_cons, List.not_mem_nil, or_false] at h
  obtain rfl | rfl | rfl | rfl | rfl | rfl | rfl | rfl | rfl | rfl := h
  exacts [⟨.add, fun _ _ _ => rfl⟩, ⟨.sub, fun _ _ _ => rfl⟩, ⟨.mul, fun _ _ _ => rfl⟩, ⟨.div, fun _ _ _ => rfl⟩,
    ⟨.rem, fun _ _ _ => rfl⟩, ⟨.and, fun _ _ _ => rfl⟩, ⟨.or, fun _ _ _ => rfl⟩, ⟨.xor, fun _ _ _ => rfl⟩,
    ⟨.lshift, fun _ _ _ => rfl⟩, ⟨.rshift, fun _ _ _ => rfl⟩]

/-- Settles O54. -/
theorem aluInstructionsRejectBadIndicesInOperandOrder : Obligations.AluInstructionsRejectBadIndicesInOperandOrder := by
  refine ⟨fun mk hmk s ra rb => ?_, fun s ra ha => ⟨_, perform_alu1_of_bad_first ha s, takeFault_rs _ _⟩⟩
  obtain ⟨op, hexec⟩ := exec_eq_perform_alu2 hmk
  rw [hexec]
  exact ⟨fun ha => ⟨_, perform_alu2_of_bad_first ha s, takeFault_rs _ _⟩,
    fun a ha hb => ⟨_, perform_alu2_of_bad_second ha hb s, takeFault_rs _ _⟩⟩

end Sys2Proof.Machine

/-! Proofs of the statements of spec/42_load_store.md. First a word access to `GP` that fails; then one lemma per outcome
of `LW` and of `SW`, in the order in which the pseudocode of R160 and R161 reaches it; the statements are assembled from
these. -/

namespace Sys2Proof.Machine

theorem exec_lw (rd rs : RegIndex) (s : State) : exec (.lw rd rs) s = execLw rd rs s := rfl

theorem exec_sw (rs rd : RegIndex) (s : State) : exec (.sw rs rd) s = execSw rs rd s := rfl

section

variable {s : State} {rd rs : RegIndex} {a d v : Reg}

/-! ### A word of GP that is not inside the segment (R54, R55) -/

theorem memReadWord_gp_of_outside {x : Nat} (hout : s.cfg.gpSize ≤ x + 1) :
    memReadWord .gp x s = .error (.addressOutOfBounds .gp (firstBadAddress s .gp x)) s := by
  rw [memReadWord_eq, segCap_gp, if_neg hout.not_gt]

theorem memWriteWord_gp_of_outside {x : Nat} (hout : s.cfg.gpSize ≤ x + 1) (w : Word) :
    memWriteWord .gp x w s = .error (.addressOutOfBounds .gp (firstBadAddress s .gp x)) s := by
  rw [memWriteWord_eq, segCap_gp, if_neg hout.not_gt]

/-! ### The outcomes of LW (R160) -/

theorem execLw_of_bad_address_register (hrs : Reg.ofIndex rs = none) (rd : RegIndex) (s : State) :
    execLw rd rs s = .next (takeFault (.registerIndexNotFound rs) s) := by
  apply perform_of_error
  rw [bind_of_error (readReg_of_none hrs s)]

/-- The destination's index does not matter: the word is read before it is checked. -/
theorem execLw_of_outside (hrs : Reg.ofIndex rs = some a) (hout : s.cfg.gpSize ≤ (s.reg a).toNat + 1) (rd : RegIndex) :
    execLw rd rs s = .next (takeFault (.addressOutOfBounds .gp (firstBadAddress s .gp (s.reg a).toNat)) s) := by
  apply perform_of_error
  rw [bind_of_ok (readReg_of_some hrs s), bind_of_error (memReadWord_gp_of_outside hout)]

theorem execLw_of_bad_destination (hrs : Reg.ofIndex rs = some a) (hin : (s.reg a).toNat + 1 < s.cfg.gpSize)
    (hrd : Reg.ofIndex rd = none) : execLw rd rs s = .next (takeFault (.registerIndexNotFound rd) s) := by
  apply perform_of_error
  rw [bind_of_ok (readReg_of_some hrs s), bind_of_ok (memReadWord_of_inside (g := .gp) hin), writeReg_of_none hrd]

theorem execLw_of_inside (hrs : Reg.ofIndex rs = some a) (hin : (s.reg a).toNat + 1 < s.cfg.gpSize)
    (hrd : Reg.ofIndex rd = some d) : execLw rd rs s = .next (s.setReg d (s.gp.getWord (s.reg a).toNat)) := by
  apply perform_of_ok
  rw [bind_of_ok (readReg_of_some hrs s), bind_of_ok (memReadWord_of_inside (g := .gp) hin), writeReg_of_some hrd,
    State.seg_gp]

/-! ### The outcomes of SW (R161) -/

theorem execSw_of_bad_value_register (hrs : Reg.ofIndex rs = none) (rd : RegIndex) (s : State) :
    execSw rs rd s = .next (takeFault (.registerIndexNotFound rs) s) := by
  apply perform_of_error
  rw [bind_of_error (readReg_of_none hrs s)]

theorem execSw_of_bad_address_register (hrs : Reg.ofIndex rs = some v) (hrd : Reg.ofIndex rd = none) (s : State) :
    execSw rs rd s = .next (takeFault (.registerIndexNotFound rd) s) := by
  apply perform_of_error
  rw [bind_of_ok (readReg_of_some hrs s), bind_of_error (readReg_of_none hrd s)]

theorem execSw_of_outside (hrs : Reg.ofIndex rs = some v) (hrd : Reg.ofIndex rd = some a)
    (hout : s.cfg.gpSize ≤ (s.reg a).toNat + 1) :
    execSw rs rd s = .next (takeFault (.addressOutOfBounds .gp (firstBadAddress s .gp (s.reg a).toNat)) s) := by
  apply perform_of_error
  rw [bind_of_ok (readReg_of_some hrs s), bind_of_ok (readReg_of_some hrd s), memWriteWord_gp_of_outside hout]

theorem execSw_of_inside (hrs : Reg.ofIndex rs = some v) (hrd : Reg.ofIndex rd = some a)
    (hin : (s.reg a).toNat + 1 < s.cfg.gpSize) :
    execSw rs rd s = .next (s.setSeg .gp (s.gp.setWord (s.reg a).toNat (s.reg v))) := by
  apply perform_of_ok
  rw [bind_of_ok (readReg_of_some hrs s), bind_of_ok (readReg_of_some hrd s), memWriteWord_of_inside (g := .gp) hin,
    State.seg_gp]

end

/-! ### The statements about load and store -/

/-- Settles O28. -/
theorem lwLoadsTheWordAtTheAddressInRs : Obligations.LwLoadsTheWordAtTheAddressInRs :=
  fun s _ _ _ _ hrd hrs hin => ⟨s.gp.getWord _, Memory.toNat_getWord s.gp _, execLw_of_inside hrs hin hrd⟩

/-- Settles O29. -/
theorem swStoresTheWordAtTheAddressInRd : Obligations.SwStoresTheWordAtTheAddressInRd := by
  intro s rs rd v a hrs hrd hin
  refine ⟨s.gp.setWord (s.reg a).toNat (s.reg v), execSw_of_inside hrs hrd hin, ?_, ?_,
    fun x hx hx' => Memory.get_setWord_of_ne s.gp _ hx hx'⟩
  · rw [Memory.get_setWord_high, toNat_highByte]
  · rw [Memory.get_setWord_low, toNat_lowByte]

/-- Settles O30: a failing access names the first bad address of its word, which is outside `GP`. -/
theorem lwAndSwFaults : Obligations.LwAndSwFaults := by
  intro s n k
  have hbad (a : Reg) (hout : s.cfg.gpSize ≤ (s.reg a).toNat + 1) :
      s.cfg.gpSize ≤ firstBadAddress s .gp (s.reg a).toNat := le_firstBadAddress (g := .gp) hout.not_gt
  rw [exec_lw, exec_sw]
  refine ⟨fun hk => ?_, fun a hk hout => ?_, fun a hk hin hn => ?_, fun hn => ?_, fun v hn hk => ?_,
    fun v a hn hk hout => ?_⟩
  · exact ⟨_, execLw_of_bad_address_register hk n s, takeFault_rs _ s⟩
  · exact ⟨_, _, execLw_of_outside hk hout n, takeFault_rs _ s, hbad a hout⟩
  · exact ⟨_, execLw_of_bad_destination hk hin hn, takeFault_rs _ s⟩
  · exact ⟨_, execSw_of_bad_value_register hn k s, takeFault_rs _ s⟩
  · exact ⟨_, execSw_of_bad_address_register hn hk s, takeFault_rs _ s⟩
  · exact ⟨_, _, execSw_of_outside hn hk hout, takeFault_rs _ s, hbad a hout, takeFault_seg _ s .gp⟩

end Sys2Proof.Machine

/-! Proofs of the statements of spec/43_move_stack.md. First the state after a push; then one lemma per outcome of `PSH`,
`PSHI`, `POP` and `SWP`, in the order in which the pseudocode of R170 to R173 reaches it; the statements are assembled from
these. `SWP` ends in `POP` of its second operand, so its cases go through the lemmas about `POP`. -/

namespace Sys2Proof.Machine

theorem exec_swp (ra rb : RegIndex) (s : State) : exec (.swp ra rb) s = execSwp ra rb s := rfl

theorem exec_psh (rs : RegIndex) (s : State) : exec (.psh rs) s = execPsh rs s := rfl

theorem exec_pshi (imm : Word) (s : State) : exec (.pshi imm) s = execPshi imm s := rfl

theorem exec_pop (rd : RegIndex) (s : State) : exec (.pop rd) s = execPop rd s := rfl

/-! ### The state after a push (R144) -/

/-- The state that a push inside the stack leaves. -/
def State.pushed (s : State) (v : Word) : State :=
  (s.setSeg .stack (s.stack.setWord (s.reg .sp).toNat v)).setReg .sp (spAfterPush (s.reg .sp))

theorem push_eq_pushed {s : State} (v : Word) (h : (s.reg .sp).toNat + 1 < s.cfg.stackSize) :
    push v s = .ok () (s.pushed v) := push_of_fits v h

@[simp] theorem State.pushed_cfg (s : State) (v : Word) : (s.pushed v).cfg = s.cfg := rfl

@[simp] theorem State.pushed_stack (s : State) (v : Word) :
    (s.pushed v).stack = s.stack.setWord (s.reg .sp).toNat v := rfl

@[simp] theorem State.pushed_sp (s : State) (v : Word) : (s.pushed v).reg .sp = spAfterPush (s.reg .sp) := by
  simp [State.pushed]

@[simp] theorem State.pushed_reg_of_ne (s : State) (v : Word) {r : Reg} (h : r ≠ .sp) :
    (s.pushed v).reg r = s.reg r := by
  simp [State.pushed, h]

@[simp] theorem State.pushed_setReg_sp (s : State) (v q : Word) :
    (s.pushed v).setReg .sp q = (s.setSeg .stack (s.stack.setWord (s.reg .sp).toNat v)).setReg .sp q := by
  simp [State.pushed]

@[simp] theorem State.pushed_setSeg_stack (s : State) (v : Word) (m : Memory) :
    (s.pushed v).setSeg .stack m = (s.setSeg .stack m).setReg .sp (spAfterPush (s.reg .sp)) := by
  simp [State.pushed, State.setReg_setSeg]

theorem spAfterPush_of_two_le {sp : Word} (h : 2 ≤ sp.toNat) : spAfterPush sp = sp - 2 := by
  rw [spAfterPush_eq, if_neg (by rintro rfl; simp at h)]

section

variable {s t u v : State} {ra rb rd rs : RegIndex} {a b d r : Reg} {c : Fault} {q x : Word}

/-! ### Push and pop at 65535, where a push at 1 wraps `sp` to (R144) -/

theorem no_word_at_wrapped_sp {c : Config} (hok : c.ok = true) : ¬ (0xFFFF : Word).toNat + 1 < c.stackSize := by
  obtain ⟨-, hsize, -⟩ := Config.stackSize_of_ok hok
  simpa using hsize

theorem push_at_wrapped_sp (hok : s.cfg.ok = true) (hsp : s.reg .sp = 0xFFFF) (w : Word) :
    push w s = .error (.addressOutOfBounds .stack (firstBadAddress s .stack (s.reg .sp).toNat)) s :=
  push_of_not_fits w (hsp ▸ no_word_at_wrapped_sp hok)

/-- A pop does not move `sp` there: it is above `SP_MAX`. -/
theorem pop_at_wrapped_sp (hok : s.cfg.ok = true) (hsp : s.reg .sp = 0xFFFF) :
    pop s = .error (.addressOutOfBounds .stack (firstBadAddress s .stack (s.reg .sp).toNat)) s := by
  have hword : ¬ (s.reg .sp).toNat + 1 < s.cfg.stackSize := hsp ▸ no_word_at_wrapped_sp hok
  have hmove : spForPop s.cfg (s.reg .sp) = s.reg .sp := spForPop_of_not_lt (by unfold Config.spMax; omega)
  rw [pop_of_not_fits hmove hword, State.setReg_reg_self]

theorem State.pushed_at_one (hsp : s.reg .sp = 1) (w : Word) : (s.pushed w).reg .sp = 0xFFFF := by
  rw [State.pushed_sp, hsp]
  rfl

/-! ### The outcomes of PSH and PSHI (R171, R172) -/

theorem execPsh_of_bad_register (hrs : Reg.ofIndex rs = none) (s : State) :
    execPsh rs s = .next (takeFault (.registerIndexNotFound rs) s) := by
  apply perform_of_error
  rw [bind_of_error (readReg_of_none hrs s)]

/-- `PSH` of a register is `PSHI` of its value. -/
theorem execPsh_eq_execPshi (hrs : Reg.ofIndex rs = some r) (s : State) : execPsh rs s = execPshi (s.reg r) s := by
  unfold execPsh execPshi perform
  rw [bind_of_ok (readReg_of_some hrs s)]

theorem execPshi_of_fits (h : (s.reg .sp).toNat + 1 < s.cfg.stackSize) (w : Word) :
    execPshi w s = .next (s.pushed w) := perform_of_ok (push_eq_pushed w h)

theorem execPshi_of_not_fits (h : ¬ (s.reg .sp).toNat + 1 < s.cfg.stackSize) (w : Word) :
    execPshi w s = .next (takeFault (.addressOutOfBounds .stack (firstBadAddress s .stack (s.reg .sp).toNat)) s) :=
  perform_of_error (push_of_not_fits w h)

/-! ### The outcomes of POP (R173) -/

theorem execPop_of_pop (hrd : Reg.ofIndex rd = some d) (h : pop s = .ok x t) : execPop rd s = .next (t.setReg d x) := by
  apply perform_of_ok
  rw [bind_of_ok h, writeReg_of_some hrd]

/-- The destination's index does not matter: the word is read before it is checked. -/
theorem execPop_of_pop_raises (h : pop s = .error c t) (rd : RegIndex) : execPop rd s = .next (takeFault c t) := by
  apply perform_of_error
  rw [bind_of_error h]

theorem execPop_of_bad_register (hrd : Reg.ofIndex rd = none) (h : pop s = .ok x t) :
    execPop rd s = .next (takeFault (.registerIndexNotFound rd) t) := by
  apply perform_of_error
  rw [bind_of_ok h, writeReg_of_none hrd]

/-! ### The outcomes of SWP (R170) -/

theorem execSwp_of_bad_first (hra : Reg.ofIndex ra = none) (rb : RegIndex) (s : State) :
    execSwp ra rb s = .next (takeFault (.registerIndexNotFound ra) s) := by
  apply perform_of_error
  rw [bind_of_error (readReg_of_none hra s)]

theorem execSwp_of_first_push_raises (hra : Reg.ofIndex ra = some a) (h : push (s.reg a) s = .error c t)
    (rb : RegIndex) : execSwp ra rb s = .next (takeFault c t) := by
  apply perform_of_error
  rw [bind_of_ok (readReg_of_some hra s), bind_of_error h]

theorem execSwp_of_bad_second (hra : Reg.ofIndex ra = some a) (hrb : Reg.ofIndex rb = none)
    (h : push (s.reg a) s = .ok () t) : execSwp ra rb s = .next (takeFault (.registerIndexNotFound rb) t) := by
  apply perform_of_error
  rw [bind_of_ok (readReg_of_some hra s), bind_of_ok h, bind_of_error (readReg_of_none hrb t)]

theorem execSwp_of_second_push_raises (hra : Reg.ofIndex ra = some a) (hrb : Reg.ofIndex rb = some b)
    (h : push (s.reg a) s = .ok () t) (h' : push (t.reg b) t = .error c u) :
    execSwp ra rb s = .next (takeFault c u) := by
  apply perform_of_error
  rw [bind_of_ok (readReg_of_some hra s), bind_of_ok h, bind_of_ok (readReg_of_some hrb t), bind_of_error h']

theorem execSwp_of_first_pop_raises (hra : Reg.ofIndex ra = some a) (hrb : Reg.ofIndex rb = some b)
    (h : push (s.reg a) s = .ok () t) (h' : push (t.reg b) t = .ok () u) (hpop : pop u = .error c v) :
    execSwp ra rb s = .next (takeFault c v) := by
  apply perform_of_error
  rw [bind_of_ok (readReg_of_some hra s), bind_of_ok h, bind_of_ok (readReg_of_some hrb t), bind_of_ok h',
    bind_of_error hpop]

/-- After its first pop, `SWP` is `POP` of the second operand. -/
theorem execSwp_of_first_pop (hra : Reg.ofIndex ra = some a) (hrb : Reg.ofIndex rb = some b)
    (h : push (s.reg a) s = .ok () t) (h' : push (t.reg b) t = .ok () u) (hpop : pop u = .ok x v) :
    execSwp ra rb s = execPop rb (v.setReg a x) := by
  unfold execSwp execPop perform
  rw [bind_of_ok (readReg_of_some hra s), bind_of_ok h, bind_of_ok (readReg_of_some hrb t), bind_of_ok h',
    bind_of_ok hpop, bind_of_ok (writeReg_of_some hra x v)]

/-! ### SWP with `4 <= sp <= SP_MAX` -/

/-- The second push and the first pop undo each other: `ra` holds the value pushed second, and what is left is the pop of
the value pushed first. -/
theorem execSwp_in_range (hra : Reg.ofIndex ra = some a) (hrb : Reg.ofIndex rb = some b) (hlo : 4 ≤ (s.reg .sp).toNat)
    (hhi : (s.reg .sp).toNat ≤ s.cfg.spMax) (hx : (s.pushed (s.reg a)).reg b = x) :
    execSwp ra rb s = execPop rb (((s.setSeg .stack
      ((s.stack.setWord (s.reg .sp).toNat (s.reg a)).setWord ((s.reg .sp).toNat - 2) x)).setReg .sp
        (s.reg .sp - 2)).setReg a x) := by
  subst hx
  have hin : (s.reg .sp).toNat + 1 < s.cfg.stackSize := succ_lt_of_le_spMax (by omega) hhi
  have hsp : ((s.pushed (s.reg a)).reg .sp).toNat = (s.reg .sp).toNat - 2 := by
    rw [State.pushed_sp, toNat_spAfterPush (by omega)]
  have hin' : ((s.pushed (s.reg a)).reg .sp).toNat + 1 < (s.pushed (s.reg a)).cfg.stackSize := by
    rw [hsp, State.pushed_cfg]; omega
  have hpop := pop_of_pushed (s := s.pushed (s.reg a)) ((s.pushed (s.reg a)).reg b) (by rw [hsp]; omega)
    (by rw [hsp, State.pushed_cfg]; omega)
  rw [execSwp_of_first_pop hra hrb (push_eq_pushed _ hin) (push_eq_pushed _ hin') hpop, hsp, State.pushed_setSeg_stack,
    State.pushed_stack, spAfterPush_of_two_le (by omega)]

/-- The last pop of `SWP` brings `sp` back and answers the word pushed first, which the second push does not overlap. -/
theorem execPop_last {p w : Word} {m : Memory} (hrb : Reg.ofIndex rb = some b) (hlo : 4 ≤ p.toNat)
    (hhi : p.toNat ≤ u.cfg.spMax) (hsp : u.reg .sp = p - 2)
    (hm : u.stack = (m.setWord p.toNat w).setWord (p.toNat - 2) x) :
    execPop rb u = .next ((u.setReg .sp p).setReg b w) := by
  have hback : spForPop u.cfg (u.reg .sp) = p := by
    rw [hsp, ← spAfterPush_of_two_le (by omega), spForPop_spAfterPush (by omega) hhi]
  have hword : u.stack.getWord p.toNat = w := by
    rw [hm, Memory.getWord_setWord_of_disjoint _ _ (by omega), Memory.getWord_setWord_self]
  rw [execPop_of_pop hrb (pop_of_fits hback (succ_lt_of_le_spMax (by omega) hhi)), hword]

/-! ### SWP at the lower clamp -/

/-- From 2 and from 0 the two pushes of `SWP` leave `sp` at 0, and its two pops read the words at 2 and 4. -/
theorem execSwp_at_lower_clamp {m : Memory} (hra : Reg.ofIndex ra = some a) (hrb : Reg.ofIndex rb = some b)
    (ha : a ≠ .sp) (hb : b ≠ .sp) (hmax : 4 ≤ s.cfg.spMax) (hsp : s.reg .sp = 2 ∨ s.reg .sp = 0)
    (hm : (s.stack.setWord (s.reg .sp).toNat (s.reg a)).setWord 0 (s.reg b) = m) :
    execSwp ra rb s =
      .next ((((s.setSeg .stack m).setReg a (m.getWord 2)).setReg b (m.getWord 4)).setReg .sp 4) := by
  have hfits : 4 + 1 < s.cfg.stackSize := succ_lt_of_le_spMax (by omega) hmax
  have hin : (s.reg .sp).toNat + 1 < s.cfg.stackSize := by obtain h | h := hsp <;> simp [h] <;> omega
  have hzero : spAfterPush (s.reg .sp) = 0 := by obtain h | h := hsp <;> rw [h] <;> rfl
  have hin' : ((s.pushed (s.reg a)).reg .sp).toNat + 1 < (s.pushed (s.reg a)).cfg.stackSize := by
    simp [hzero]; omega
  have hpushed : (s.pushed (s.reg a)).pushed ((s.pushed (s.reg a)).reg b) = (s.setSeg .stack m).setReg .sp 0 := by
    rw [State.pushed, State.pushed_setSeg_stack, State.setReg_setReg_self, State.pushed_sp, hzero, State.pushed_stack,
      State.pushed_reg_of_ne s _ hb, ← hm]
    rfl
  have hpush := push_eq_pushed ((s.pushed (s.reg a)).reg b) hin'
  rw [hpushed] at hpush
  have hpop : pop ((s.setSeg .stack m).setReg .sp 0) = .ok (m.getWord 2) ((s.setSeg .stack m).setReg .sp 2) := by
    rw [pop_of_fits (q := 2) (spForPop_of_lt (by simp; omega)) (by simp; omega)]
    simp
  rw [execSwp_of_first_pop hra hrb (push_eq_pushed _ hin) hpush hpop,
    execPop_of_pop hrb (pop_of_fits (q := 4) _ (by simp; omega))]
  · simp [State.setReg_comm _ _ _ ha, State.setReg_comm _ _ _ hb]
  · rw [State.reg_setReg_of_ne _ _ ha.symm, State.reg_setReg_self]
    exact spForPop_of_lt (by simp; omega)

/-! ### SWP where a push wraps `sp` to 65535 -/

/-- The first push wraps `sp`, and the second raises. -/
theorem execSwp_at_one (hra : Reg.ofIndex ra = some a) (hrb : Reg.ofIndex rb = some b) (hok : s.cfg.ok = true)
    (hsp : s.reg .sp = 1) (hin : (s.reg .sp).toNat + 1 < s.cfg.stackSize) :
    ∃ t x, execSwp ra rb s = .next t ∧ t.rs = .faulted (.addressOutOfBounds .stack x) := by
  have hraise := push_at_wrapped_sp (s := s.pushed (s.reg a)) hok (State.pushed_at_one hsp _)
  exact ⟨_, _, execSwp_of_second_push_raises hra hrb (push_eq_pushed _ hin) (hraise _), takeFault_rs _ _⟩

/-- The second push wraps `sp`, and the first pop raises. -/
theorem execSwp_at_three (hra : Reg.ofIndex ra = some a) (hrb : Reg.ofIndex rb = some b) (hok : s.cfg.ok = true)
    (hsp : s.reg .sp = 3) (hin : (s.reg .sp).toNat + 1 < s.cfg.stackSize) :
    ∃ t x, execSwp ra rb s = .next t ∧ t.rs = .faulted (.addressOutOfBounds .stack x) := by
  have hone : (s.pushed (s.reg a)).reg .sp = 1 := by rw [State.pushed_sp, hsp]; rfl
  have hin' : ((s.pushed (s.reg a)).reg .sp).toNat + 1 < (s.pushed (s.reg a)).cfg.stackSize := by
    simp [hsp] at hin
    simp [hone]
    omega
  have hraise (w : Word) := pop_at_wrapped_sp (s := (s.pushed (s.reg a)).pushed w) hok (State.pushed_at_one hone w)
  exact ⟨_, _, execSwp_of_first_pop_raises hra hrb (push_eq_pushed _ hin) (push_eq_pushed _ hin') (hraise _),
    takeFault_rs _ _⟩

/-! ### PSHI and then POP (R174) -/

/-- From 0 the push does not move `sp`, so the pop reads the word at 2. -/
theorem execPop_of_pushed_at_zero (hrd : Reg.ofIndex rd = some d) (hsp : s.reg .sp = 0) (hmax : 2 ≤ s.cfg.spMax)
    (w : Word) :
    execPop rd (s.pushed w) =
      .next (((s.setSeg .stack (s.stack.setWord 0 w)).setReg .sp 2).setReg d (s.stack.getWord 2)) := by
  have hmove : spForPop (s.pushed w).cfg ((s.pushed w).reg .sp) = 2 := by
    rw [State.pushed_sp, hsp]
    exact spForPop_of_lt (c := s.cfg) (show 0 < s.cfg.spMax by omega)
  have hin : 2 + 1 < s.cfg.stackSize := succ_lt_of_le_spMax (by omega) hmax
  rw [execPop_of_pop hrd (pop_of_fits hmove hin)]
  simp [hsp, Memory.getWord_setWord_of_disjoint]

end

/-! ### The statements about the stack instructions -/

/-- Settles O34. -/
theorem pshAndPshiPushTheirOperand : Obligations.PshAndPshiPushTheirOperand := by
  intro s hin
  rw [← spAfterPush_eq]
  refine ⟨fun rs r hrs => ?_, fun w => ?_⟩
  · rw [exec_psh, execPsh_eq_execPshi hrs, execPshi_of_fits hin, State.pushed]
  · rw [exec_pshi, execPshi_of_fits hin, State.pushed]

/-- Settles O35. -/
theorem popLoadsTheWordAtTheMovedSp : Obligations.PopLoadsTheWordAtTheMovedSp := by
  intro s rd d q hrd hq hin
  have hmove : spForPop s.cfg (s.reg .sp) = q := hq.symm
  exact ⟨s.stack.getWord q.toNat, Memory.toNat_getWord _ _, execPop_of_pop hrd (pop_of_fits hmove hin)⟩

/-- Settles O36: a failing access names the first bad address of its word, which is outside the stack. -/
theorem stackInstructionFaults : Obligations.StackInstructionFaults := by
  intro s n
  have hbad (x : Nat) (hout : s.cfg.stackSize ≤ x + 1) : s.cfg.stackSize ≤ firstBadAddress s .stack x :=
    le_firstBadAddress (g := .stack) hout.not_gt
  refine ⟨fun hn => ?_, fun hout => ?_, fun q hq => ?_⟩
  · exact ⟨_, execPsh_of_bad_register hn s, takeFault_rs _ s⟩
  · have hpshi (w : Word) := execPshi_of_not_fits hout.not_gt w
    exact ⟨fun r hr => ⟨_, _, (execPsh_eq_execPshi hr s).trans (hpshi _), takeFault_rs _ s, hbad _ hout⟩,
      fun w => ⟨_, _, hpshi w, takeFault_rs _ s, hbad _ hout⟩⟩
  · have hmove : spForPop s.cfg (s.reg .sp) = q := hq.symm
    exact ⟨fun hout => ⟨_, _, execPop_of_pop_raises (pop_of_not_fits hmove hout.not_gt) n, takeFault_rs _ _, hbad _ hout⟩,
      fun hin hn => ⟨_, execPop_of_bad_register hn (pop_of_fits hmove hin), takeFault_rs _ _⟩⟩

/-! ### The statements about SWP -/

/-- Settles O37. -/
theorem swpExchangesTheRegisters : Obligations.SwpExchangesTheRegisters := by
  intro s ra rb a b hra hrb ha hb hlo hhi
  rw [exec_swp, execSwp_in_range hra hrb hlo hhi (State.pushed_reg_of_ne s _ hb),
    execPop_last hrb hlo (by simpa using hhi) (by simp [ha.symm]) rfl]
  simp [State.setReg_comm _ _ _ ha.symm, State.setReg_of_eq, ha.symm]

/-- Settles O38. -/
theorem swpWithAnOperandNamingSp : Obligations.SwpWithAnOperandNamingSp := by
  intro s n sp r hsp hn hr hlo hhi
  have hmoved (v : Word) : (s.pushed v).reg .sp = s.reg .sp - 2 := by
    rw [State.pushed_sp, spAfterPush_of_two_le (by omega)]
  rw [exec_swp, exec_swp, exec_swp, exec_pop]
  refine ⟨?_, ?_, ?_⟩
  · rw [execSwp_in_range hsp hn hlo hhi (State.pushed_reg_of_ne s _ hr), State.setReg_setReg_self]
  · rw [execSwp_in_range hn hsp hlo hhi (hmoved _),
      execPop_last hsp hlo (by simpa using hhi) (by simp [hr.symm]) rfl]
    simp [State.setReg_comm _ _ _ hr]
  · rw [execSwp_in_range hsp hsp hlo hhi (hmoved _), execPop_last hsp hlo (by simpa using hhi) (by simp) rfl]
    simp [State.setReg_of_eq]

/-- Settles O39. -/
theorem swpAtTheLowerClampDoesNotExchange : Obligations.SwpAtTheLowerClampDoesNotExchange := by
  intro s ra rb a b hra hrb ha hb hmax
  rw [exec_swp]
  refine ⟨fun hsp => ?_, fun hsp => ?_⟩
  · have hm : (s.stack.setWord (s.reg .sp).toNat (s.reg a)).setWord 0 (s.reg b) =
        (s.stack.setWord 2 (s.reg a)).setWord 0 (s.reg b) := by rw [hsp]; rfl
    rw [execSwp_at_lower_clamp hra hrb ha hb hmax (.inl hsp) hm]
    simp [Memory.getWord_setWord_of_disjoint, State.setReg_of_eq]
  · have hm : (s.stack.setWord (s.reg .sp).toNat (s.reg a)).setWord 0 (s.reg b) =
        (s.stack.setWord 0 (s.reg a)).setWord 0 (s.reg b) := by rw [hsp]; rfl
    rw [execSwp_at_lower_clamp hra hrb ha hb hmax (.inr hsp) hm]
    simp [Memory.getWord_setWord_of_disjoint]

/-- Settles O40. -/
theorem swpFaults : Obligations.SwpFaults := by
  intro s ra rb
  rw [exec_swp]
  refine ⟨fun ha => ?_, fun a ha hout => ?_, fun a ha hb hin => ?_, fun a b ha hb hok hsp => ?_⟩
  · exact ⟨_, execSwp_of_bad_first ha rb s, takeFault_rs _ s⟩
  · exact ⟨_, _, execSwp_of_first_push_raises ha (push_of_not_fits _ hout.not_gt) rb, takeFault_rs _ s,
      le_firstBadAddress (g := .stack) hout.not_gt⟩
  · exact ⟨_, execSwp_of_bad_second ha hb (push_eq_pushed _ hin), takeFault_rs _ _⟩
  · obtain hout | hin := le_or_gt s.cfg.stackSize ((s.reg .sp).toNat + 1)
    · exact ⟨_, _, execSwp_of_first_push_raises ha (push_of_not_fits _ hout.not_gt) rb, takeFault_rs _ s⟩
    · obtain hone | hthree := hsp
      · exact execSwp_at_one ha hb hok hone hin
      · exact execSwp_at_three ha hb hok hthree hin

/-- Settles O41. -/
theorem movExpansionAndRegisterCopy : Obligations.MovExpansionAndRegisterCopy := by
  intro s rd d v hrd _ hok
  have hback (w : Word) (hlo : 2 ≤ (s.reg .sp).toNat) (hhi : (s.reg .sp).toNat ≤ s.cfg.spMax) :
      ∃ t, exec (.pshi w) s = .next t ∧
        exec (.pop rd) t = .next ((s.setSeg .stack (s.stack.setWord (s.reg .sp).toNat w)).setReg d w) :=
    ⟨_, execPshi_of_fits (succ_lt_of_le_spMax (by omega) hhi) w, execPop_of_pop hrd (pop_of_pushed w hlo hhi)⟩
  refine ⟨rfl, hback v, fun hsp hmax => ?_, fun hsp hmax => ?_, fun hout => ?_, fun rs r hrs hlo hhi => ?_⟩
  · have hin : 2 + 1 < s.cfg.stackSize := succ_lt_of_le_spMax (by omega) hmax
    exact ⟨_, execPshi_of_fits (by simp [hsp]; omega) v, execPop_of_pushed_at_zero hrd hsp hmax v⟩
  · have hin : 1 + 1 < s.cfg.stackSize := succ_lt_of_le_spMax (by omega) hmax
    have hwrap : s.pushed v = (s.setSeg .stack (s.stack.setWord 1 v)).setReg .sp 65535 := by
      rw [State.pushed, hsp]
      rfl
    have hraise := pop_at_wrapped_sp (s := s.pushed v) hok (State.pushed_at_one hsp v)
    exact ⟨_, execPshi_of_fits (by simpa [hsp] using hin) v, hwrap, _, _, execPop_of_pop_raises hraise rd,
      takeFault_rs _ _⟩
  · have hnot : ¬ (s.reg .sp).toNat + 1 < s.cfg.stackSize := fun h => (le_spMax_of_succ_lt h).not_gt hout
    exact ⟨_, _, execPshi_of_not_fits hnot v, takeFault_rs _ s⟩
  · rw [exec_psh, execPsh_eq_execPshi hrs]
    exact hback _ hlo hhi

end Sys2Proof.Machine

/-! Proofs of the statements of spec/44_call_return.md. With `CALL_MODE = noop` the three opcodes do no operation once their
bytes are fetched, so each answers as the empty operation does. -/

namespace Sys2Proof.Machine

theorem exec_jali (imm : Word) (s : State) : exec (.jali imm) s = execJali imm s := rfl

theorem exec_jal (rs : RegIndex) (s : State) : exec (.jal rs) s = execJal rs s := rfl

theorem exec_ret (s : State) : exec .ret s = execRet s := rfl

/-- The empty operation raises nothing and leaves the state as it is. -/
theorem perform_pure (s : State) : perform (pure ()) s = .next s := perform_of_ok (pure_apply () s)

theorem execJali_eq_next (imm : Word) (s : State) : execJali imm s = .next s := perform_pure s

/-- The operand byte may be any byte: it is not read as a register index (R181). -/
theorem execJal_eq_next (rs : RegIndex) (s : State) : execJal rs s = .next s := perform_pure s

theorem execRet_eq_next (s : State) : execRet s = .next s := perform_pure s

/-- Settles O43. -/
theorem callAndReturnOpcodesChangeNothing : Obligations.CallAndReturnOpcodesChangeNothing := by
  intro s
  refine ⟨fun w => ?_, fun n => ?_, ?_⟩
  · rw [exec_jali, execJali_eq_next]
  · rw [exec_jal, execJal_eq_next]
  · rw [exec_ret, execRet_eq_next]

end Sys2Proof.Machine

/-! Proofs of the statements of spec/47_control_flow.md. The six branches are one template run with six conditions on the
flags (R212): what the template answers is said once, and a statement about the branches is read off it by what the flags
say there. -/

namespace Sys2Proof.Machine

/-! ### The outcomes of JR and JI (R210, R211) -/

theorem exec_jr (rs : RegIndex) (s : State) : exec (.jr rs) s = execJr rs s := rfl

theorem exec_ji (imm : Word) (s : State) : exec (.ji imm) s = execJi imm s := rfl

theorem execJr_of_register {rs : RegIndex} {r : Reg} (hrs : Reg.ofIndex rs = some r) (s : State) :
    execJr rs s = .next (s.setReg .ip (s.reg r)) := by
  apply perform_of_ok
  rw [bind_of_ok (readReg_of_some hrs s), jump_apply]

theorem execJr_of_bad_register {rs : RegIndex} (hrs : Reg.ofIndex rs = none) (s : State) :
    execJr rs s = .next (takeFault (.registerIndexNotFound rs) s) := by
  apply perform_of_error
  rw [bind_of_error (readReg_of_none hrs s)]

theorem execJi_eq (imm : Word) (s : State) : execJi imm s = .next (s.setReg .ip imm) := perform_of_ok (jump_apply imm s)

/-- Settles O55. -/
theorem jumpsSetIpAndNothingElse : Obligations.JumpsSetIpAndNothingElse := by
  refine fun s => ⟨fun rs r hrs => ?_, fun rs hrs => ?_, fun w => ?_⟩
  · rw [exec_jr, execJr_of_register hrs]
  · rw [exec_jr]
    exact ⟨_, execJr_of_bad_register hrs s, takeFault_rs _ s⟩
  · rw [exec_ji, execJi_eq]

/-! ### The branch template (R212) -/

theorem exec_beq (imm : Word) (s : State) : exec (.beq imm) s = perform (branch (fun f => f.z) imm) s := rfl

theorem exec_bne (imm : Word) (s : State) : exec (.bne imm) s = perform (branch (fun f => !f.z) imm) s := rfl

theorem exec_blt (imm : Word) (s : State) : exec (.blt imm) s = perform (branch (fun f => f.n) imm) s := rfl

theorem exec_ble (imm : Word) (s : State) : exec (.ble imm) s = perform (branch (fun f => f.n || f.z) imm) s := rfl

theorem exec_bgt (imm : Word) (s : State) : exec (.bgt imm) s = perform (branch (fun f => !f.n) imm) s := rfl

theorem exec_bge (imm : Word) (s : State) : exec (.bge imm) s = perform (branch (fun f => !f.n || f.z) imm) s := rfl

/-- A branch whose condition says `p` of the flags it finds jumps exactly if `p`, and changes nothing but `ip`. -/
theorem perform_branch_of_iff {cond : Flags → Bool} {s : State} {p : Prop} [Decidable p] (h : cond s.flags = true ↔ p)
    (imm : Word) : perform (branch cond imm) s = .next (if p then s.setReg .ip imm else s) := by
  rw [if_congr h.symm rfl rfl]
  exact perform_of_ok rfl

/-- `mk` makes the branches at the opcode byte `op`, which test `taken`: their row of the opcode map and their meaning. -/
structure IsBranch (op : Byte) (mk : Word → Instr) (taken : Flags → Bool) : Prop where
  row : opcodeShape op = some (.i mk)
  meaning : ∀ imm s, exec (mk imm) s = perform (branch taken imm) s

/-- The opcode bytes and the conditions of R213 to R218. -/
theorem isBranch_of_mem {op : Byte} {mk : Word → Instr} {taken : Flags → Bool}
    (h : (op, mk, taken) ∈ ([
      (0x17, Instr.beq, fun f => f.z),
      (0x18, Instr.bne, fun f => !f.z),
      (0x19, Instr.blt, fun f => f.n),
      (0x1A, Instr.ble, fun f => f.n || f.z),
      (0x1B, Instr.bgt, fun f => !f.n),
      (0x1C, Instr.bge, fun f => !f.n || f.z)] : List (Byte × (Word → Instr) × (Flags → Bool)))) :
    IsBranch op mk taken := by
  simp only [List.mem_cons, List.not_mem_nil, or_false, Prod.mk.injEq] at h
  obtain ⟨rfl, rfl, rfl⟩ | ⟨rfl, rfl, rfl⟩ | ⟨rfl, rfl, rfl⟩ | ⟨rfl, rfl, rfl⟩ | ⟨rfl, rfl, rfl⟩ | ⟨rfl, rfl, rfl⟩ := h
  exacts [⟨rfl, exec_beq⟩, ⟨rfl, exec_bne⟩, ⟨rfl, exec_blt⟩, ⟨rfl, exec_ble⟩, ⟨rfl, exec_bgt⟩, ⟨rfl, exec_bge⟩]

/-! ### The step of an instruction with an immediate -/

/-- The big-endian word of two bytes is the one with their value (R57, R85). -/
theorem eq_beWord {w : Word} {hi lo : Byte} (h : w.toNat = hi.toNat * 256 + lo.toNat) : w = beWord hi lo :=
  BitVec.eq_of_toNat_eq (h.trans (toNat_beWord hi lo).symm)

/-- The two fetches of an instruction with an immediate stay inside `PROG` when its last byte does. -/
theorem fetchFits_i_of_last_byte {s : State} (hcap : s.cfg.progSize ≤ 65536)
    (hlast : (s.reg .ip).toNat + 2 < s.cfg.progSize) : s.fetchFits .i = true := by
  have hnext : (s.reg .ip + 1).toNat = (s.reg .ip).toNat + 1 := by bv_omega
  exact fetchFits_i.mpr ⟨by omega, by omega⟩

/-- A running machine with an opcode byte of format `I` and two more bytes of `PROG` at `ip` performs the row's
instruction on the word of these two, with `ip` moved past all three. -/
theorem step_of_immediate_window {s : State} {op hi lo : Byte} {mk : Word → Instr} (hrow : opcodeShape op = some (.i mk))
    (hr : s.rs = .running) (hwin : s.window = [op, hi, lo]) (hlast : (s.reg .ip).toNat + 2 < s.cfg.progSize)
    (hcap : s.cfg.progSize ≤ 65536) : step s = exec (mk (beWord hi lo)) (s.setReg .ip (s.reg .ip + 3)) := by
  have hdec : decode (op :: [hi, lo]) = .ok (mk (beWord hi lo), []) :=
    decode_of_makes hrow (.of_two_bytes mk hi lo)
  have hformat : Format.i = (mk (beWord hi lo)).format := by
    obtain ⟨hformat, -⟩ := format_and_length_of_decode hdec
    rw [hrow] at hformat
    exact Option.some.inj hformat
  rw [← hwin] at hdec
  have hstep := stepPerformsTheDecodedInstruction s _ _ hr hcap hdec (hformat ▸ fetchFits_i_of_last_byte hcap hlast)
  rw [← hformat] at hstep
  exact hstep

/-- Settles O56. -/
theorem branchesTestTheirFlags : Obligations.BranchesTestTheirFlags := by
  intro s w hi lo op mk taken hw hmem
  obtain ⟨hrow, hmeaning⟩ := isBranch_of_mem hmem
  obtain rfl := eq_beWord hw
  have hexec (t : State) : exec (mk (beWord hi lo)) t =
      .next (if taken t.flags = true then t.setReg .ip (beWord hi lo) else t) := by
    rw [hmeaning, perform_branch_of_iff Iff.rfl]
  refine ⟨encode_of_makes hrow (.of_two_bytes mk hi lo), hexec s, fun hr hwin hlast hcap => ?_⟩
  rw [step_of_immediate_window hrow hr hwin hlast hcap, hexec, State.setReg_flags, State.setReg_setReg_self]

/-! ### The branches after SUB (R219) -/

/-- Settles O57: the flags that `SUB` leaves say whether its operands are equal and whether the first is less; the other
conditions are read off these two, in the linear order of the signed readings. -/
theorem branchesAfterSubCompareSignedOperands : Obligations.BranchesAfterSubCompareSignedOperands := by
  intro s ra rb a b w ha hb
  obtain ⟨f, hsub, hz, hn, -⟩ := subResultAndFlags s ra rb a b ha hb
  have hne : (!f.z) = true ↔ s.reg a ≠ s.reg b := by rw [Bool.not_eq_true', ← Bool.not_eq_true, hz]
  have hle : (f.n || f.z) = true ↔ (s.reg a).toInt ≤ (s.reg b).toInt := by
    rw [Bool.or_eq_true, hn, hz, ← BitVec.toInt_inj, le_iff_lt_or_eq]
  have hge : (!f.n) = true ↔ (s.reg b).toInt ≤ (s.reg a).toInt := by
    rw [Bool.not_eq_true', ← Bool.not_eq_true, hn, not_lt]
  have hge' : (!f.n || f.z) = true ↔ (s.reg b).toInt ≤ (s.reg a).toInt := by
    rw [Bool.or_eq_true, hge, hz, ← BitVec.toInt_inj]
    exact or_iff_left_of_imp ge_of_eq
  refine ⟨_, hsub, ?_⟩
  rw [exec_beq, exec_bne, exec_blt, exec_ble, exec_bgt, exec_bge]
  exact ⟨perform_branch_of_iff hz w, perform_branch_of_iff hne w, perform_branch_of_iff hn w,
    perform_branch_of_iff hle w, perform_branch_of_iff hge w, perform_branch_of_iff hge' w⟩

end Sys2Proof.Machine

/-! Proofs of the statements of spec/48_halt.md. `HLT` is a row of format `N`, so its step is the fetch of the opcode byte
alone, followed by the instruction's own meaning. -/

namespace Sys2Proof.Machine

/-- The row of `HLT` in the opcode map (R88). -/
theorem opcodeShape_hlt : opcodeShape 0x1D = some (.n .hlt) := rfl

/-- An opcode byte of format `N` is the whole instruction: a running machine performs it with `ip` moved past that byte. -/
theorem step_of_opcode_without_operands {s : State} {i : Instr} (hr : s.rs = .running)
    (hip : (s.reg .ip).toNat < s.cfg.progSize) (hrow : opcodeShape (s.prog.get (s.reg .ip).toNat) = some (.n i)) :
    step s = exec i (s.setReg .ip (s.reg .ip + 1)) := by
  have hfetch : fetchInstr s = .ok i s.pastOpcode := fetchInstr_of_opcode hip hrow
  exact step_of_fetched hr hfetch

/-- Settles O58. -/
theorem hltHaltsAndChangesNothingElse : Obligations.HltHaltsAndChangesNothingElse := by
  refine fun s => ⟨encode_of_makes opcodeShape_hlt (.n .hlt), exec_hlt s, fun hr hip hbyte => ?_⟩
  have hrow : opcodeShape (s.prog.get (s.reg .ip).toNat) = some (.n .hlt) := by rw [hbyte, opcodeShape_hlt]
  rw [step_of_opcode_without_operands hr hip hrow, exec_hlt]

end Sys2Proof.Machine

/-! Proofs of the statements of spec/60_exceptions.md. An ALU instruction faults on a running machine exactly when its
operator raises, so which second operands raise is read off the raw result. -/

namespace Sys2Proof.Machine

/-! ### Taking a fault (R240, R254) -/

theorem takeFault_stopped (c : Fault) (s : State) : (takeFault c s).rs ≠ .running := by
  rw [takeFault_rs]
  exact RunState.noConfusion

/-- Settles O13. -/
theorem takingAFaultWritesOnlyTheRunState : Obligations.TakingAFaultWritesOnlyTheRunState :=
  ⟨fun _ _ _ _ hraise => perform_of_error hraise, fun _ _ _ hr hfetch => step_of_fetch_fault hr hfetch,
    fun t u c => step_ne_next_of_stopped (takeFault_stopped c t) u⟩

/-! ### The second operands that raise (R244, R245, R247) -/

theorem rawResult_div_raises_iff (a b : Word) : rawResult .div a b = .error .divideByZero ↔ b = 0 := by
  obtain rfl | hb := eq_or_ne b 0
  · simp only [rawResult_div_zero]
  · simpa [rawResult_div hb] using hb

theorem rawResult_rem_raises_iff (a b : Word) : rawResult .rem a b = .error .moduloByZero ↔ b = 0 := by
  obtain rfl | hb := eq_or_ne b 0
  · simp only [rawResult_rem_zero]
  · simpa [rawResult_rem hb] using hb

theorem rawResult_lshift_raises_iff (a b : Word) :
    rawResult .lshift a b = .error .shiftCountNegative ↔ 0x8000 ≤ b.toNat := by
  obtain hb | hb := lt_or_ge b.toNat 0x8000
  · simp [rawResult_lshift hb, hb]
  · simp [rawResult_lshift_neg hb, hb]

theorem rawResult_rshift_raises_iff (a b : Word) :
    rawResult .rshift a b = .error .shiftCountNegative ↔ 0x8000 ≤ b.toNat := by
  obtain hb | hb := lt_or_ge b.toNat 0x8000
  · simp [rawResult_rshift hb, hb]
  · simp [rawResult_rshift_neg hb, hb]

/-- With operands that are registers, the operator is the one thing in a binary ALU instruction that can raise. The
machine must be running: an instruction that completes keeps the run state, which could else be that fault already. -/
theorem perform_alu2_faults_iff {op : AluOp} {ra rb : RegIndex} {a b : Reg} {s : State} (ha : Reg.ofIndex ra = some a)
    (hb : Reg.ofIndex rb = some b) (hr : s.rs = .running) (c : Fault) :
    (∃ t, perform (alu2 op ra rb) s = .next t ∧ t.rs = .faulted c) ↔ rawResult op (s.reg a) (s.reg b) = .error c := by
  cases h : rawResult op (s.reg a) (s.reg b) with
  | ok raw => simp [perform_alu2_of_ok ha hb h, hr]
  | error d => simp [perform_alu2_of_error ha hb h]

/-- Settles O49. -/
theorem arithmeticFaults : Obligations.ArithmeticFaults := by
  intro s ra rb a b ha hb hr
  exact ⟨(perform_alu2_faults_iff ha hb hr _).trans (rawResult_div_raises_iff _ _),
    (perform_alu2_faults_iff ha hb hr _).trans (rawResult_rem_raises_iff _ _),
    (perform_alu2_faults_iff ha hb hr _).trans (rawResult_lshift_raises_iff _ _),
    (perform_alu2_faults_iff ha hb hr _).trans (rawResult_rshift_raises_iff _ _)⟩

end Sys2Proof.Machine

/-! Proofs of the statements of spec/70_reset_and_hazards.md. A load that passes its checks writes one image into `PROG`,
each function's bytes with a zero byte after them, and where a function stands in that image is its offset. Every other
answer of the host's operations is read off the phase and the checks. -/

namespace Sys2Proof.Machine

/-! ### The answers of a load (R273, R276) -/

section
variable {fs : List (String × List Byte)} {n : Nat} {h h' : Session}

theorem loadProgram_of_too_large (hp : h.phase = .constructed) (hsize : h.core.cfg.progSize ≤ n + fs.length) :
    loadProgram fs n h = .programTooLarge { h with phase := .loadFailed } := by
  rw [loadProgram_of_constructed hp, loadImage, if_pos hsize]

theorem loadProgram_of_false_count (hp : h.phase = .constructed) (hsize : n + fs.length < h.core.cfg.progSize)
    (hn : n ≠ trueByteCount fs) : loadProgram fs n h = .refused .falseByteCount := by
  rw [loadProgram_of_constructed hp, loadImage, if_neg (not_le.mpr hsize), if_pos hn]

/-- The checks passed, the layout cannot fail. -/
theorem loadProgram_of_true_count (hp : h.phase = .constructed)
    (hsize : trueByteCount fs + fs.length < h.core.cfg.progSize) :
    ∃ ls s, loadFunctions fs 0 h.core = .ok ls s ∧ ProgOnly h.core s ∧
      loadProgram fs (trueByteCount fs) h = .loaded { core := s, labels := ls, phase := .loaded } := by
  rw [loadProgram_of_constructed hp]
  obtain ⟨hlarge, -⟩ | ⟨-, hn, -⟩ | ⟨-, -, hloaded⟩ := loadImage_cases fs (trueByteCount fs) h
  · omega
  · exact absurd rfl hn
  · exact hloaded

/-- Everything a load can answer, in any phase. -/
theorem loadProgram_cases (fs : List (String × List Byte)) (n : Nat) (h : Session) :
    (∃ r, loadProgram fs n h = .refused r) ∨
    (h.core.cfg.progSize ≤ n + fs.length ∧ loadProgram fs n h = .programTooLarge { h with phase := .loadFailed }) ∨
    ∃ h', loadProgram fs n h = .loaded h' ∧ h'.phase = .loaded ∧ ProgOnly h.core h'.core := by
  by_cases hp : h.phase = .constructed
  · rw [loadProgram_of_constructed hp]
    obtain hlarge | ⟨-, -, e⟩ | ⟨-, -, ls, s, -, honly, e⟩ := loadImage_cases fs n h
    · exact .inr (.inl hlarge)
    · exact .inl ⟨_, e⟩
    · exact .inr (.inr ⟨_, e, rfl, honly⟩)
  · exact .inl ⟨_, loadProgram_of_not_constructed hp fs n⟩

theorem loadProgram_eq_programTooLarge (e : loadProgram fs n h = .programTooLarge h') :
    h.core.cfg.progSize ≤ n + fs.length ∧ h' = { h with phase := .loadFailed } := by
  obtain ⟨r, e'⟩ | ⟨hsize, e'⟩ | ⟨t, e', -⟩ := loadProgram_cases fs n h <;> rw [e'] at e <;> cases e
  exact ⟨hsize, rfl⟩

theorem loadProgram_eq_loaded (e : loadProgram fs n h = .loaded h') : h'.phase = .loaded ∧ ProgOnly h.core h'.core := by
  obtain ⟨r, e'⟩ | ⟨-, e'⟩ | ⟨t, e', ht⟩ := loadProgram_cases fs n h <;> rw [e'] at e <;> cases e
  exact ht

theorem loadProgram_ne_outOfBounds (c : Fault) : loadProgram fs n h ≠ .outOfBounds c := by
  intro e
  obtain ⟨r, e'⟩ | ⟨-, e'⟩ | ⟨t, e', -⟩ := loadProgram_cases fs n h <;> rw [e'] at e <;> cases e

end

/-- Settles O15. -/
theorem loadFailsExactlyWhenTooLarge : Obligations.LoadFailsExactlyWhenTooLarge := by
  intro fs n h hp
  refine ⟨⟨fun e => (loadProgram_eq_programTooLarge e).1, loadProgram_of_too_large hp⟩,
    fun _ e => (loadProgram_eq_programTooLarge e).2, fun hsize => ⟨?_, loadProgram_of_false_count hp hsize⟩⟩
  rintro rfl
  obtain ⟨ls, s, -, -, e⟩ := loadProgram_of_true_count hp hsize
  exact ⟨_, e⟩

/-! ### The host's step and run (R277, R279) -/

section
variable {h : Session}

theorem session_step_of_loadFailed (hp : h.phase = .loadFailed) : h.step = .error .loadHasFailed := by
  rw [Session.step, hp]

theorem session_run_of_loadFailed (hp : h.phase = .loadFailed) (fuel : Nat) : h.run fuel = .error .loadHasFailed := by
  rw [Session.run, hp]

theorem session_step_of_next (hp : h.phase ≠ .loadFailed) {t : State} (hs : step h.core = .next t) :
    h.step = .ok { h with core := t, phase := .started } := by
  rw [Session.step, hs]
  cases e : h.phase with
  | loadFailed => exact absurd e hp
  | constructed | loaded | started => rfl

theorem session_step_of_stopped (hp : h.phase ≠ .loadFailed) (hr : h.core.rs ≠ .running) :
    h.step = .error .notRunning := by
  rw [Session.step]
  cases e : h.phase with
  | loadFailed => exact absurd e hp
  | constructed | loaded | started =>
    cases hs : step h.core with
    | next t => exact absurd hs (step_ne_next_of_stopped hr t)
    | fault | refused => rfl

theorem session_run_of_not_loadFailed (hp : h.phase ≠ .loadFailed) (fuel : Nat) :
    h.run fuel = .ok { h with core := run fuel h.core, phase := .started } := by
  rw [Session.run]
  cases e : h.phase with
  | loadFailed => exact absurd e hp
  | constructed | loaded | started => rfl

end

/-- Settles O59. -/
theorem loadIsOnceAndBeforeTheRun : Obligations.LoadIsOnceAndBeforeTheRun := by
  intro h fs n fuel
  refine ⟨fun hp => loadProgram_of_not_constructed hp fs n, fun h' e => ?loaded, fun h' e => ?tooLarge,
    loadProgram_ne_outOfBounds, fun hp => ⟨session_step_of_loadFailed hp, session_run_of_loadFailed hp fuel⟩,
    fun hp => ⟨fun _ => session_step_of_next hp, session_run_of_not_loadFailed hp fuel, session_step_of_stopped hp⟩⟩
  case loaded =>
    obtain ⟨hphase, hcore, -⟩ := loadProgram_eq_loaded e
    exact ⟨hphase, hcore⟩
  case tooLarge =>
    obtain ⟨-, rfl⟩ := loadProgram_eq_programTooLarge e
    exact ⟨rfl, rfl, rfl⟩

/-! ### The image of a program (R274) -/

/-- What a load lays out from address 0: each function's bytes and the padding byte after them. -/
def programImage (fs : List (String × List Byte)) : List Byte := fs.flatMap fun f => f.2 ++ [0]

@[simp] theorem programImage_nil : programImage [] = [] := rfl

@[simp] theorem programImage_cons (f : String × List Byte) (fs : List (String × List Byte)) :
    programImage (f :: fs) = f.2 ++ 0 :: programImage fs := by
  simp [programImage]

theorem programImage_append (fs gs : List (String × List Byte)) :
    programImage (fs ++ gs) = programImage fs ++ programImage gs := List.flatMap_append

@[simp] theorem functionOffset_zero (fs : List (String × List Byte)) : functionOffset fs 0 = 0 := rfl

@[simp] theorem functionOffset_cons_succ (f : String × List Byte) (fs : List (String × List Byte)) (k : Nat) :
    functionOffset (f :: fs) (k + 1) = f.2.length + 1 + functionOffset fs k := by
  simp [functionOffset]

/-- A function's offset is the length of the image before it. -/
theorem length_programImage_take (fs : List (String × List Byte)) (k : Nat) :
    (programImage (fs.take k)).length = functionOffset fs k := by
  simp [programImage, functionOffset, List.length_flatMap]

/-- From a function's offset on, the image is that function, its padding byte and the functions after it. -/
theorem getElem?_programImage_functionOffset {fs : List (String × List Byte)} {k : Nat} {f : String × List Byte}
    (hk : fs[k]? = some f) (j : Nat) :
    (programImage fs)[functionOffset fs k + j]? = (f.2 ++ 0 :: programImage (fs.drop (k + 1)))[j]? := by
  have hdrop : fs.drop k = f :: fs.drop (k + 1) := by
    obtain ⟨hlt, rfl⟩ := List.getElem?_eq_some_iff.mp hk
    exact List.drop_eq_getElem_cons hlt
  have himage : programImage fs = programImage (fs.take k) ++ programImage (fs.drop k) := by
    rw [← programImage_append, List.take_append_drop]
  rw [himage, hdrop, programImage_cons, ← length_programImage_take, List.getElem?_append_right (Nat.le_add_right _ _),
    Nat.add_sub_cancel_left]

/-! ### What a load that succeeds leaves in `PROG` and in the label table (R274, R275) -/

theorem memWriteByte_eq_ok {g : Seg} {a : Nat} {b : Byte} {s t : State} (e : memWriteByte g a b s = .ok () t) :
    t = s.setSeg g ((s.seg g).set a b) := by
  rw [memWriteByte_eq] at e
  split at e <;> cases e
  rfl

/-- The bytes stand from `a` on, and every other address keeps its byte. -/
theorem get_prog_of_loadBytes {bs : List Byte} {a : Nat} {s t : State} (e : loadBytes bs a s = .ok () t) :
    (∀ x < a, t.prog.get x = s.prog.get x) ∧ ∀ j, t.prog.get (a + j) = bs[j]?.getD (s.prog.get (a + j)) := by
  induction bs generalizing a s with
  | nil => cases e; simp
  | cons b bs ih =>
    obtain ⟨_, u, hw, hrest⟩ := bind_eq_ok.mp e
    obtain rfl := memWriteByte_eq_ok hw
    obtain ⟨hbelow, hfrom⟩ := ih hrest
    simp only [State.setSeg_prog_prog, State.seg_prog] at hbelow hfrom
    refine ⟨fun x hx => ?_, fun j => ?_⟩
    · rw [hbelow x (by omega), Memory.get_set_of_ne _ _ hx.ne]
    · cases j with
      | zero => simp [hbelow a a.lt_succ_self]
      | succ j => rw [show a + (j + 1) = a + 1 + j by omega, hfrom, Memory.get_set_of_ne _ _ (by omega),
        List.getElem?_cons_succ]

/-- Where nothing was written before, the image stands from `off` on, with zeros above it: a padding byte is not written. -/
theorem get_prog_of_loadFunctions {fs : List (String × List Byte)} {off : Nat} {ls : List (String × Nat)} {s t : State}
    (hzero : ∀ x, off ≤ x → s.prog.get x = 0) (e : loadFunctions fs off s = .ok ls t) :
    (∀ x < off, t.prog.get x = s.prog.get x) ∧ ∀ j, t.prog.get (off + j) = (programImage fs)[j]?.getD 0 := by
  induction fs generalizing off ls s with
  | nil => cases e; simp [hzero]
  | cons f fs ih =>
    obtain ⟨_, u, hbytes, hrest⟩ := bind_eq_ok.mp e
    obtain ⟨ls', v, hfs, hret⟩ := bind_eq_ok.mp hrest
    cases hret
    obtain ⟨hbelow, hfrom⟩ := get_prog_of_loadBytes hbytes
    have hbytes_at : ∀ j, u.prog.get (off + j) = f.2[j]?.getD 0 := fun j => by rw [hfrom, hzero _ (Nat.le_add_right _ _)]
    have hzero' : ∀ x, off + f.2.length + 1 ≤ x → u.prog.get x = 0 := fun x hx => by
      obtain ⟨d, rfl⟩ := Nat.exists_eq_add_of_le (show off ≤ x by omega)
      rw [hbytes_at, List.getElem?_eq_none (by omega), Option.getD_none]
    obtain ⟨hkept, himage⟩ := ih hzero' hfs
    refine ⟨fun x hx => by rw [hkept x (by omega), hbelow x hx], fun j => ?_⟩
    rw [programImage_cons]
    obtain hj | rfl | hj := lt_trichotomy j f.2.length
    · rw [hkept _ (by omega), hbytes_at, List.getElem?_append_left hj]
    · rw [hkept _ (by omega), hbytes_at]
      simp
    · obtain ⟨d, rfl⟩ := Nat.exists_eq_add_of_lt hj
      rw [show off + (f.2.length + d + 1) = off + f.2.length + 1 + d by omega, himage, Nat.add_assoc,
        List.getElem?_append_right (Nat.le_add_right _ _), Nat.add_sub_cancel_left, List.getElem?_cons_succ]

theorem labels_of_loadFunctions {fs : List (String × List Byte)} {off : Nat} {ls : List (String × Nat)} {s t : State}
    (e : loadFunctions fs off s = .ok ls t) : ls = fs.mapIdx fun k f => (f.1, off + functionOffset fs k) := by
  induction fs generalizing off ls s with
  | nil => cases e; rfl
  | cons f fs ih =>
    obtain ⟨_, u, hf, hrest⟩ := bind_eq_ok.mp e
    obtain ⟨ls', v, hfs, hret⟩ := bind_eq_ok.mp hrest
    cases hret
    simp [List.mapIdx_cons, ih hfs, Nat.add_assoc]

/-- Settles O16. -/
theorem loadPlacesEveryFunctionAtItsOffset : Obligations.LoadPlacesEveryFunctionAtItsOffset := by
  intro fs h hp hprog hsize
  obtain ⟨ls, s, hfs, ⟨hcore, -⟩, e⟩ := loadProgram_of_true_count hp hsize
  have hzero : ∀ x, 0 ≤ x → h.core.prog.get x = 0 := fun x _ => by rw [hprog, Memory.get_nil]
  have himage : ∀ x, s.prog.get x = (programImage fs)[x]?.getD 0 := fun x => by
    simpa using (get_prog_of_loadFunctions hzero hfs).2 x
  obtain rfl := labels_of_loadFunctions hfs
  refine ⟨s.prog, _, hcore ▸ e, List.length_mapIdx, fun k name bytes hk => ⟨?label, fun j b hj => ?byte, ?padding⟩,
    fun a ha => ?above⟩
  case label => simp [hk]
  case byte =>
    obtain ⟨hlt, -⟩ := List.getElem?_eq_some_iff.mp hj
    rw [himage, getElem?_programImage_functionOffset hk, List.getElem?_append_left hlt, hj, Option.getD_some]
  case padding => simp [himage, getElem?_programImage_functionOffset hk]
  case above =>
    rw [← length_programImage_take, List.take_length] at ha
    rw [himage, List.getElem?_eq_none ha, Option.getD_none]

end Sys2Proof.Machine
